-- ==== Sys2Proof/Word.lean ====
section
/-! DEFINITION. The word of the machine: a mathematical integer (R11, R32, R56). -/

namespace Sys2Proof

/-- An instruction word or data word: "a 16-bit signed integer in the closed range [-999, 999]" (R32).
The machine is decimal and no rule looks at a bit of the container (R12), so a word is an integer and
its range is a predicate (log 1). `omega` reads a goal about words after `simp only [Word] at *`. -/
abbrev Word := Int

end Sys2Proof
end

