-- ==== Sys2Proof/Config.lean ====
section
/-! DEFINITION. The parameters of rule R9: the fixed ones as constants, each in one place (U12), and the
type of the three the spec leaves open (R10). The open ones get their defaults in Machine/Params.lean. -/

namespace Sys2Proof.Config

/-- MEM_SIZE, the number of mailboxes (R9). -/
def memSize : Nat := 100

/-- WORD_MIN, the least legal word and accumulator value (R9). -/
def wordMin : Word := -999

/-- WORD_MAX, the greatest legal word and accumulator value (R9). -/
def wordMax : Word := 999

/-- The greatest value of the unsigned 7-bit container of PC (R24, D9; log 15). -/
def pcMax : Nat := 127

/-- What a mailbox no one has written reads as. The load of an image makes every mailbox beyond the
image zero (R53); of a machine never loaded the spec says nothing (R45, U11).
DESIGN CHOICE, unsafe for a run that reads a mailbox never loaded (log 2). -/
def unlistedWord : Word := 0

/-- The seven opcode digits of format A and the three fixed codes of format F (R84). -/
def opAdd : Word := 1
@[inherit_doc opAdd] def opSub : Word := 2
@[inherit_doc opAdd] def opSta : Word := 3
@[inherit_doc opAdd] def opLda : Word := 5
@[inherit_doc opAdd] def opBra : Word := 6
@[inherit_doc opAdd] def opBrz : Word := 7
@[inherit_doc opAdd] def opBrp : Word := 8
@[inherit_doc opAdd] def codeHlt : Word := 0
@[inherit_doc opAdd] def codeInp : Word := 901
@[inherit_doc opAdd] def codeOut : Word := 902

/-- A value is a legal word: from -999 to 999 (R32, R42). -/
abbrev InWord (w : Word) : Prop := wordMin ≤ w ∧ w ≤ wordMax

/-- The configuration fields of rule R10. -/
structure OpenParams where
  /-- `wrapAcc`, the overflow law of ADD and SUB. -/
  wrapAcc : Word → Word
  /-- `HAS_OTC`, character output present. -/
  hasOtc : Bool
  /-- `OTC_CODE`, the word of character output. -/
  otcCode : Word

/-- The two properties a proof may assume of any `wrapAcc` (R140): its values are in range, and a value
in range is left alone. -/
def LegalWrap (law : Word → Word) : Prop :=
  ∀ s, InWord (law s) ∧ (InWord s → law s = s)

/-- A legal `OTC_CODE` is a word the rest of the map leaves invalid (R85). -/
abbrev LegalOtcCode (c : Word) : Prop :=
  (1 ≤ c ∧ c ≤ 99) ∨ (400 ≤ c ∧ c ≤ 499) ∨ c = 900 ∨ (903 ≤ c ∧ c ≤ 999)

/-- A legal configuration (R85, R140). -/
def OpenParams.Legal (p : OpenParams) : Prop :=
  LegalWrap p.wrapAcc ∧ LegalOtcCode p.otcCode

end Sys2Proof.Config
end

