-- ==== Sys2Proof/Machine/Params.lean ====
section
/-! DEFINITION. The open parameters of rule R10 at the defaults of rule R9. -/

namespace Sys2Proof.Machine

/-- The accumulator overflow law: the symmetric wrap into [-999, 999], modulus 1999 (R140).
DESIGN CHOICE of the spec (D1), unsafe for a claim that reads an overflowed value (log 3). -/
def wrap (s : Word) : Word := (s + 999) % 1999 - 999

/-- The unit's parameters: `wrap`, character output present, its word 922 (R9, R10).
DESIGN CHOICE of the spec (D1, D5; PRESUMED for 922, G1), unsafe (logs 3 and 4). -/
def unitParams : Config.OpenParams := { wrapAcc := wrap, hasOtc := true, otcCode := 922 }

end Sys2Proof.Machine
end

