-- ==== Sys2Proof/Syntax.lean ====
section
/-! DEFINITION. The instructions: one constructor per row of spec/opcode_table.json, in the table's order. -/

namespace Sys2Proof

/-- The eleven cases of the closed dispatch (R126). The argument of a format A instruction is its operand,
an absolute mailbox address (R82). -/
inductive Instr where
  /-- HLT, alias COB: word 0 (R185). -/
  | hlt
  /-- ADD: words 100 to 199 (R141). -/
  | add (a : Nat)
  /-- SUB: words 200 to 299 (R142). -/
  | sub (a : Nat)
  /-- STA, alias STORE: words 300 to 399 (R150). -/
  | sta (a : Nat)
  /-- LDA, alias LOAD: words 500 to 599 (R151). -/
  | lda (a : Nat)
  /-- BRA: words 600 to 699 (R160). -/
  | bra (a : Nat)
  /-- BRZ: words 700 to 799 (R161). -/
  | brz (a : Nat)
  /-- BRP: words 800 to 899 (R162). -/
  | brp (a : Nat)
  /-- INP: word 901 (R174). -/
  | inp
  /-- OUT: word 902 (R176). -/
  | out
  /-- OTC: the word OTC_CODE, when HAS_OTC (R177). -/
  | otc
  deriving DecidableEq, Repr

/-- The operand of a format A instruction, none for format F (R81). -/
def Instr.operand? : Instr → Option Nat
  | .hlt => none
  | .add a => some a
  | .sub a => some a
  | .sta a => some a
  | .lda a => some a
  | .bra a => some a
  | .brz a => some a
  | .brp a => some a
  | .inp => none
  | .out => none
  | .otc => none

end Sys2Proof
end

