-- ==== Sys2Proof/Machine/State.lean ====
section
/-! DEFINITION. The state of the machine as plain data, the reasons a step can stop, and the state after
reset. -/

namespace Sys2Proof.Machine

/-- The mailboxes: a list of (address, word) pairs, addresses strictly rising, no word equal to what an
unlisted mailbox reads as. The cell is the spec's smallest addressable unit, a whole word (R50); there is
no byte and no byte order (R56). DESIGN CHOICE, safe (log 1). -/
abbrev Memory := List (Nat × Word)

/-- The display kind of an Output Record (R173). -/
inductive OutputKind where
  | numeric
  | character
  deriving DecidableEq, Repr

/-- "the value (and its display kind, e.g. numeric vs. character) emitted by a single OUTPUT instruction"
(R173). -/
structure OutputRecord where
  value : Word
  kind : OutputKind
  deriving DecidableEq, Repr

/-- The four outcomes of a step (R16). -/
inductive StepResult where
  | ok
  | needInput
  | errPcOutOfBounds
  | errBadInstruction
  deriving DecidableEq, Repr

/-- What the unit drives on its interfaces during a step (R35): `result`, `in_take` (R39), and the output
port `out_valid`, `out_value`, `out_kind` as an optional record (R38). -/
structure StepReport where
  /-- The outcome, `none` when no step has been performed since reset (R220). -/
  result : Option StepResult
  /-- The unit consumed an input value in this step (R39). -/
  inTake : Bool
  /-- The Output Record of this step, at most one (R38, R173). -/
  output : Option OutputRecord
  deriving DecidableEq, Repr

/-- The machine. The first six fields are the Machine State of R34; the last three are the model's own and
belong to the boundary of the unit (R35): no step's effect on the first six depends on `outputs` or
`report` (logs 7 and 9). -/
structure State where
  /-- Program Counter (R21, R24). -/
  pc : Nat
  /-- Accumulator (R25). -/
  acc : Word
  /-- Current Instruction Register (R28). -/
  cir : Word
  /-- Memory Address Register (R29). -/
  mar : Nat
  /-- Memory Data Register (R30). -/
  mdr : Word
  /-- RAM[0] to RAM[99] (R32). -/
  mem : Memory
  /-- The answers the I/O capability gives to the coming invocations of `In()`, next one first: `some v`
  is `(v, true)`, `none` is `(_, false)`; with no answer left, `(_, false)` (R171; log 7). -/
  answers : List (Option Word)
  /-- The Output Records emitted and not yet collected by the host, oldest first (R173; log 9). -/
  outputs : List OutputRecord
  /-- What the last step reported (R35; log 9). -/
  report : StepReport
  deriving DecidableEq, Repr

/-- Why a step ends in an error. The two ExecutionErrors of the spec carry the state the step leaves, since
the host sees it (R190, R191, R197; log 5). -/
inductive Fault where
  /-- `Err(PcOutOfBounds)` (R190). Raised by the fetch when PC is 100 to 127. Safe: the spec's own error. -/
  | pcOutOfBounds (left : State)
  /-- `Err(BadInstruction)` (R191). Raised by the decode of an invalid word. Safe for PC, ACC, memory and
  I/O; the CIR of `left` is the spec's decision D6 (log 5). -/
  | badInstruction (left : State)
  /-- The address decoder selects no mailbox for a data address (R51). Raised by the meaning of an
  instruction term whose operand is above 99, which no word decodes to (R52). Safe (log 16). -/
  | noMailbox (a : Nat)
  deriving DecidableEq, Repr

/-- Why a step has no meaning. -/
inductive Refusal where
  /-- The instruction has no meaning yet. Raised by `exec` only. Safe. -/
  | notModelled (mnemonic : String)
  /-- The Machine State is not well-formed: outside the contract of the unit (R42, D18). Raised by `step`.
  Safe (log 6). -/
  | illFormedState
  /-- The I/O capability offered an input value outside -999 to 999: outside the contract (R172, D10).
  Raised by INP. Safe (log 8). -/
  | inputOutOfRange (v : Word)
  deriving DecidableEq, Repr

/-- The machine right after reset: the five registers 0 (R44), no mailbox loaded (R45), no outcome
reported (R220), nothing offered and nothing emitted. The register values are the spec's decision D11
(log 10); the mailboxes and the model's own fields are DESIGN CHOICE (logs 2, 7, 9). -/
def State.reset : State where
  pc := 0
  acc := 0
  cir := 0
  mar := 0
  mdr := 0
  mem := []
  answers := []
  outputs := []
  report := { result := none, inTake := false, output := none }

end Sys2Proof.Machine
end

