-- ==== Sys2Proof/Machine/Ops.lean ====
section
/-! DEFINITION. The named operations over mailboxes, registers and the I/O boundary, and the shared ways a
step ends: completed (R127), paused (R174), in error (R190, R191). -/

namespace Sys2Proof.Machine

/-! ## The mailboxes -/

/-- The content of mailbox `a` (R54). -/
def Memory.read : Memory → Nat → Word
  | [], _ => Config.unlistedWord
  | (k, v) :: m, a => if k = a then v else Memory.read m a

/-- Put `(a, v)` in front of a list of higher addresses, or nothing where `v` is what an unlisted mailbox
reads as. -/
def Memory.put (a : Nat) (v : Word) (m : Memory) : Memory :=
  if v = Config.unlistedWord then m else (a, v) :: m

/-- Set mailbox `a` to `v`, keeping the canonical form (R55). -/
def Memory.write : Memory → Nat → Word → Memory
  | [], a, v => Memory.put a v []
  | (k, w) :: m, a, v =>
    if a < k then Memory.put a v ((k, w) :: m)
    else if a = k then Memory.put a v m
    else (k, w) :: Memory.write m a v

/-- The list is canonical from address `lo` on: addresses strictly rising, each a mailbox (R50), no word
equal to what an unlisted mailbox reads as. -/
def Memory.wfFrom : Nat → Memory → Bool
  | _, [] => true
  | lo, (k, v) :: m =>
    decide (lo ≤ k ∧ k < Config.memSize ∧ v ≠ Config.unlistedWord) && Memory.wfFrom (k + 1) m

/-- The list is in canonical form. -/
def Memory.wf (m : Memory) : Bool := Memory.wfFrom 0 m

/-- Every mailbox holds a legal word (R42). -/
abbrev Memory.WordsOk (m : Memory) : Prop := ∀ c ∈ m, Config.InWord c.2

/-- The mailboxes after the words of an image are laid out from address `k` on. -/
def Memory.ofImageFrom : Nat → List Word → Memory
  | _, [] => []
  | k, w :: ws => Memory.put k w (Memory.ofImageFrom (k + 1) ws)

/-- "Loading it sets `RAM[i]` to word `i` of the image", zeros after (R53). -/
def Memory.ofImage (ws : List Word) : Memory := Memory.ofImageFrom 0 ws

/-- The memory address decoder: an address from 0 to 99 selects exactly the mailbox with that index; any
other selects none. No translation, mirror or alias (R51). -/
def decodeAddress (a : Nat) : Option Nat := if a < Config.memSize then some a else none

/-- `MemRead(a, 1)` (R14, R54); `none` where the decoder selects no mailbox. -/
def memRead (s : State) (a : Nat) : Option Word := (decodeAddress a).map s.mem.read

/-! ## The registers: one update each -/

/-- `PC <- v` (R21). -/
def State.setPc (s : State) (v : Nat) : State := { s with pc := v }
/-- `ACC <- v` (R25). -/
def State.setAcc (s : State) (v : Word) : State := { s with acc := v }
/-- `CIR <- v` (R28). -/
def State.setCir (s : State) (v : Word) : State := { s with cir := v }
/-- `MAR <- v` (R29). -/
def State.setMar (s : State) (v : Nat) : State := { s with mar := v }
/-- `MDR <- v` (R30). -/
def State.setMdr (s : State) (v : Word) : State := { s with mdr := v }
/-- The mailboxes replaced. -/
def State.setMem (s : State) (v : Memory) : State := { s with mem := v }
/-- The coming answers replaced. -/
def State.setAnswers (s : State) (v : List (Option Word)) : State := { s with answers := v }
/-- The uncollected output records replaced. -/
def State.setOutputs (s : State) (v : List OutputRecord) : State := { s with outputs := v }
/-- The report of the step. -/
def State.setReport (s : State) (v : StepReport) : State := { s with report := v }

/-- `PC <- PC + 1`, ordinary integer addition, no wrap: 99 + 1 is 100 (R23). -/
def State.advancePc (s : State) : State := s.setPc (s.pc + 1)

/-- `MemWrite(a, 1, v)` (R14, R55); `none` where the decoder selects no mailbox. -/
def memWrite (s : State) (a : Nat) (v : Word) : Option State :=
  (decodeAddress a).map fun k => s.setMem (s.mem.write k v)

/-! ## The well-formed Machine State -/

/-- A Machine State is well-formed (R42). The canonical form of the list is the model's own clause: a list
out of form is no content of the mailboxes (log 6). -/
abbrev State.WellFormed (s : State) : Prop :=
  s.pc ≤ Config.pcMax ∧ Config.InWord s.acc ∧ Config.InWord s.cir ∧ s.mar < Config.memSize ∧
    Config.InWord s.mdr ∧ s.mem.wf = true ∧ s.mem.WordsOk

/-! ## The I/O boundary -/

/-- `In()` (R171): the capability's answer and the state with that answer given. With no answer left the
capability reports that nothing is available. -/
def askInput (s : State) : Option Word × State :=
  match s.answers with
  | [] => (none, s)
  | v :: rest => (v, s.setAnswers rest)

/-- `Out(v, kind)` records a value and cannot fail (R173). -/
def emitOutput (s : State) (r : OutputRecord) : State := s.setOutputs (s.outputs ++ [r])

/-! ## How a step ends -/

/-- The report of a step that completed and did no I/O (R127). -/
def okReport : StepReport := { result := some .ok, inTake := false, output := none }

/-- A step that reaches its end has outcome `Ok` (R16, R127). -/
def complete (s : State) : State := s.setReport okReport

/-- `pause NeedInput`: no further state change; `in_take` stays low (R16, R39, R174). -/
def pauseNeedInput (s : State) : State :=
  s.setReport { result := some .needInput, inTake := false, output := none }

/-- The two ExecutionErrors (R190, R191). -/
inductive ExecError where
  | pcOutOfBounds
  | badInstruction
  deriving DecidableEq, Repr

/-- The outcome an error reports (R16). -/
def ExecError.result : ExecError → StepResult
  | .pcOutOfBounds => .errPcOutOfBounds
  | .badInstruction => .errBadInstruction

/-- The state an error leaves: nothing saved, no mode, no vector, no handler (R197); only the report says
that the step failed. -/
def errorState (e : ExecError) (s : State) : State :=
  s.setReport { result := some e.result, inTake := false, output := none }

/-- `raise`: the step ends with the named error and makes no further state change (R16, R197). There is no
return from an error: a later step starts from the state left, as from any state (R199). -/
def raise (e : ExecError) (s : State) : Fault :=
  match e with
  | .pcOutOfBounds => .pcOutOfBounds (errorState .pcOutOfBounds s)
  | .badInstruction => .badInstruction (errorState .badInstruction s)

/-- The number of an outcome on the two wires of the `result` interface (R36). DESIGN CHOICE of the spec
(D14), safe: nothing reads it (log 22). -/
def StepResult.code : StepResult → Fin 4
  | .ok => 0
  | .needInput => 1
  | .errPcOutOfBounds => 2
  | .errBadInstruction => 3

end Sys2Proof.Machine
end

