-- ==== Sys2Proof/Machine/Operands.lean ====
section
/-! DEFINITION. The one operand form: direct absolute (R82, R152). The operand is latched into MAR by the
decode (R125); the data access is at MAR and passes through MDR (R30). -/

namespace Sys2Proof.Machine

/-- `MAR <- operand(CIR)`, written for every format A instruction before its execute phase (R125).
DESIGN CHOICE of the spec (D7), unsafe for a claim that reads MAR only (log 11). -/
def latchOperand (a : Nat) (s : State) : State := s.setMar a

/-- The effective address: MAR, which holds the operand (R152). -/
def effectiveAddress (s : State) : Nat := s.mar

/-- `MDR <- MemRead(MAR, 1)` (R141, R142, R151), after the latch; `none` where the operand names no mailbox.
For LDA that the word passes through MDR is the spec's D8 (log 12). -/
def loadOperand (a : Nat) (s : State) : Option State :=
  let s1 := latchOperand a s
  (memRead s1 (effectiveAddress s1)).map s1.setMdr

/-- `MDR <- ACC`, then `MemWrite(MAR, 1, MDR)` (R150), after the latch; `none` where the operand names no
mailbox. That MDR holds the stored value is the spec's D8 (log 12). -/
def storeOperand (a : Nat) (s : State) : Option State :=
  let s1 := (latchOperand a s).setMdr s.acc
  memWrite s1 (effectiveAddress s1) s1.mdr

end Sys2Proof.Machine
end

