-- ==== Sys2Proof/Machine/Arithmetic.lean ====
section
/-! DEFINITION. ADD and SUB (R140 to R144): the exact sum or difference of two signed words, then the
overflow law once. -/

namespace Sys2Proof.Machine

/-- The execute phase ADD and SUB share: `MDR <- RAM[MAR]`, `ACC <- law(f ACC MDR)`, `PC <- PC + 1`
(R141, R142, R143), under any overflow law (R10). -/
def accumulate (law : Word → Word) (f : Word → Word → Word) (a : Nat) (s : State) :
    Host.Outcome State Fault Refusal :=
  match loadOperand a s with
  | none => .fault (.noMailbox a)
  | some s1 => .next (complete ((s1.setAcc (law (f s1.acc s1.mdr))).advancePc))

/-- ADD `a` under the configuration `p` (R10, R141). -/
def addWith (p : Config.OpenParams) (a : Nat) (s : State) : Host.Outcome State Fault Refusal :=
  accumulate p.wrapAcc (fun acc m => acc + m) a s

/-- SUB `a` under the configuration `p`: the memory word taken from the accumulator, never the reverse
(R10, R142, R143). -/
def subWith (p : Config.OpenParams) (a : Nat) (s : State) : Host.Outcome State Fault Refusal :=
  accumulate p.wrapAcc (fun acc m => acc - m) a s

/-- ADD `a` at the defaults of R9 (R141). -/
def execAdd (a : Nat) (s : State) : Host.Outcome State Fault Refusal := addWith unitParams a s

/-- SUB `a` at the defaults of R9 (R142). -/
def execSub (a : Nat) (s : State) : Host.Outcome State Fault Refusal := subWith unitParams a s

end Sys2Proof.Machine
end

