-- ==== Sys2Proof/Machine/Flags.lean ====
section
/-! DEFINITION. The machine has no flags (R27). What stands in their place: the two tests the conditional
branches make of the value of ACC at the time the branch executes. -/

namespace Sys2Proof.Machine

/-- "iff Accumulator == 0" (R161). -/
def accIsZero (s : State) : Bool := decide (s.acc = 0)

/-- "iff Accumulator ≥ 0": zero counts as positive (R162, R243). -/
def accIsNonneg (s : State) : Bool := decide (0 ≤ s.acc)

end Sys2Proof.Machine
end

