-- ==== Sys2Proof/Machine/Branch.lean ====
section
/-! DEFINITION. BRA, BRZ and BRP (R160 to R164): the target is MAR, which the decode has written with the
operand whether or not the branch is taken. -/

namespace Sys2Proof.Machine

/-- `if taken then PC <- MAR else PC <- PC + 1` (R160, R161, R162). -/
def branch (taken : Bool) (a : Nat) (s : State) : State :=
  let s1 := latchOperand a s
  complete (if taken then s1.setPc s1.mar else s1.advancePc)

/-- BRA `a`: branch always (R160). -/
def execBra (a : Nat) (s : State) : Host.Outcome State Fault Refusal := .next (branch true a s)

/-- BRZ `a`: branch if the accumulator is zero (R161). -/
def execBrz (a : Nat) (s : State) : Host.Outcome State Fault Refusal :=
  .next (branch (accIsZero s) a s)

/-- BRP `a`: branch if the accumulator is zero or positive (R162). -/
def execBrp (a : Nat) (s : State) : Host.Outcome State Fault Refusal :=
  .next (branch (accIsNonneg s) a s)

end Sys2Proof.Machine
end

