-- ==== Sys2Proof/Machine/Halt.lean ====
section
/-! DEFINITION. HLT (R185). -/

namespace Sys2Proof.Machine

/-- HLT, alias COB, does nothing and its step completes: PC does not advance, there is no halted flag
(R185). DESIGN CHOICE of the spec (D2) between two passages of its source; unsafe only for a host that
steps at halt (log 17). -/
def execHlt (s : State) : Host.Outcome State Fault Refusal := .next (complete s)

end Sys2Proof.Machine
end

