-- ==== Sys2Proof/Machine/InputOutput.lean ====
section
/-! DEFINITION. INP, OUT and OTC (R170 to R178): none of them writes MAR or MDR (R29, R30). -/

namespace Sys2Proof.Machine

/-- A value was offered: `ACC <- v`, `PC <- PC + 1`, `in_take` driven (R174, R39). A value outside
-999 to 999 gives the step no meaning (R172; log 8). -/
def takeInput (v : Word) (s : State) : Host.Outcome State Fault Refusal :=
  if Config.InWord v then
    .next (((s.setAcc v).advancePc).setReport { result := some .ok, inTake := true, output := none })
  else .refused (.inputOutOfRange v)

/-- INP: one invocation of `In()` (R38); on no input, the pause (R174, R175). -/
def execInp (s : State) : Host.Outcome State Fault Refusal :=
  match askInput s with
  | (none, s1) => .next (pauseNeedInput s1)
  | (some v, s1) => takeInput v s1

/-- `Out(ACC, kind)`, `PC <- PC + 1` (R176, R177). The integer is passed unconverted (D20). -/
def outputAcc (kind : OutputKind) (s : State) : State :=
  let r : OutputRecord := { value := s.acc, kind := kind }
  ((emitOutput s r).advancePc).setReport { result := some .ok, inTake := false, output := some r }

/-- OUT: the accumulator as a number (R176). -/
def execOut (s : State) : Host.Outcome State Fault Refusal := .next (outputAcc .numeric s)

/-- OTC: the accumulator as a character (R177). -/
def execOtc (s : State) : Host.Outcome State Fault Refusal := .next (outputAcc .character s)

end Sys2Proof.Machine
end

