-- ==== Sys2Proof/Machine/LoadStore.lean ====
section
/-! DEFINITION. STA and LDA (R150, R151, R152). -/

namespace Sys2Proof.Machine

/-- STA `a`, alias STORE (R150). -/
def execSta (a : Nat) (s : State) : Host.Outcome State Fault Refusal :=
  match storeOperand a s with
  | none => .fault (.noMailbox a)
  | some s1 => .next (complete s1.advancePc)

/-- LDA `a`, alias LOAD (R151). -/
def execLda (a : Nat) (s : State) : Host.Outcome State Fault Refusal :=
  match loadOperand a s with
  | none => .fault (.noMailbox a)
  | some s1 => .next (complete (s1.setAcc s1.mdr).advancePc)

end Sys2Proof.Machine
end

