-- ==== Sys2Proof/Machine/Dispatch.lean ====
section
/-! DEFINITION. The closed dispatch (R126): one arm per constructor of Instr. -/

namespace Sys2Proof.Machine

/-- The execute phase of an instruction, with the latch of its operand into MAR (R121, R125). -/
def exec (i : Instr) (s : State) : Host.Outcome State Fault Refusal :=
  match i with
  | .hlt => Sys2Proof.Machine.execHlt s
  | .add a => Sys2Proof.Machine.execAdd a s
  | .sub a => Sys2Proof.Machine.execSub a s
  | .sta a => Sys2Proof.Machine.execSta a s
  | .lda a => Sys2Proof.Machine.execLda a s
  | .bra a => Sys2Proof.Machine.execBra a s
  | .brz a => Sys2Proof.Machine.execBrz a s
  | .brp a => Sys2Proof.Machine.execBrp a s
  | .inp => Sys2Proof.Machine.execInp s
  | .out => Sys2Proof.Machine.execOut s
  | .otc => Sys2Proof.Machine.execOtc s

end Sys2Proof.Machine
end

