-- ==== Sys2Proof/WellFormed.lean ====
section
/-! DEFINITION. Which instruction terms stand for a word: an operand is two decimal digits (R81, R82), and
OTC exists only when HAS_OTC is true (R177). -/

namespace Sys2Proof

/-- An operand is a mailbox address, 0 to 99 (R82). -/
abbrev OperandOk (a : Nat) : Prop := a < Config.memSize

/-- The instruction has an encoding under the parameters `p`. -/
def Instr.WellFormed (p : Config.OpenParams) : Instr → Bool
  | .hlt => true
  | .add a => decide (OperandOk a)
  | .sub a => decide (OperandOk a)
  | .sta a => decide (OperandOk a)
  | .lda a => decide (OperandOk a)
  | .bra a => decide (OperandOk a)
  | .brz a => decide (OperandOk a)
  | .brp a => decide (OperandOk a)
  | .inp => true
  | .out => true
  | .otc => p.hasOtc

end Sys2Proof
end

