-- ==== Sys2Proof/Decode.lean ====
section
/-! DEFINITION. The decode function, total on every integer (R86), the encoder (R81, R84, R107), and the
decoder read from a bit pattern (`decodeTableWord`). -/

namespace Sys2Proof

/-- Why a word is `Invalid` (R87). -/
inductive InvalidWord where
  /-- Below 0: negative words are data only (R90). -/
  | negative
  /-- 1 to 99: not HLT (R88). -/
  | zeroHundred
  /-- 400 to 499: opcode digit 4 is unassigned (R89). -/
  | fourHundred
  /-- 900, or 903 to 999 other than `OTC_CODE` when `HAS_OTC` (R88). -/
  | nineHundred
  /-- Above 999: no word (R86). -/
  | tooLarge
  deriving DecidableEq, Repr

/-- "returns one instruction or `Invalid`" (R86). -/
inductive Decoded where
  /-- The word is this instruction. -/
  | instr (i : Instr)
  /-- The word is `Invalid`, and why. -/
  | invalid (why : InvalidWord)
  deriving DecidableEq, Repr

/-- `operand(w) = w mod 100`, the two low decimal digits (R82). -/
def operandOf (w : Word) : Nat := (w % 100).toNat

/-- The opcode digit of a word, `w div 100` (R82). -/
def opcodeDigitOf (w : Word) : Word := w / 100

/-- Format A: the instruction of opcode digit `d` with operand `a`; none for the digits the map gives no
family, 4 among them (R81, R84, R89). -/
def decodeFormatA (d : Word) (a : Nat) : Option Instr :=
  if d = Config.opAdd then some (.add a)
  else if d = Config.opSub then some (.sub a)
  else if d = Config.opSta then some (.sta a)
  else if d = Config.opLda then some (.lda a)
  else if d = Config.opBra then some (.bra a)
  else if d = Config.opBrz then some (.brz a)
  else if d = Config.opBrp then some (.brp a)
  else none

/-- Format F: the whole word is the code (R81, R84); OTC only when `HAS_OTC` (R85). -/
def decodeFixed (p : Config.OpenParams) (w : Word) : Option Instr :=
  if w = Config.codeHlt then some .hlt
  else if w = Config.codeInp then some .inp
  else if w = Config.codeOut then some .out
  else if w = p.otcCode ∧ p.hasOtc = true then some .otc
  else none

/-- Which of the invalid ranges an invalid non-negative word lies in (R87, R88, R89). -/
def invalidRange (w : Word) : InvalidWord :=
  if w ≤ 99 then .zeroHundred
  else if w ≤ 499 then .fourHundred
  else if w ≤ 999 then .nineHundred
  else .tooLarge

/-- `decode` of R86. A negative word is not split into digits (R90). "The ranges do not overlap, so the order
matters only for reading": the fixed codes are tried before the families, so that an `OTC_CODE` that R85
allows anywhere among the invalid words decodes to OTC as R84 says (log 4).
DESIGN CHOICE of the spec for the words 1 to 99, 900, 903 to 999 and the negatives (D3, D4), safe (log 18). -/
def decode (p : Config.OpenParams) (w : Word) : Decoded :=
  if w < 0 then .invalid .negative
  else
    match decodeFixed p w with
    | some i => .instr i
    | none =>
      match decodeFormatA (opcodeDigitOf w) (operandOf w) with
      | some i => .instr i
      | none => .invalid (invalidRange w)

/-- The opcode digit of a format A instruction, none for format F (R81, R82). -/
def Instr.opcodeDigit? : Instr → Option Word
  | .hlt => none
  | .add _ => some Config.opAdd
  | .sub _ => some Config.opSub
  | .sta _ => some Config.opSta
  | .lda _ => some Config.opLda
  | .bra _ => some Config.opBra
  | .brz _ => some Config.opBrz
  | .brp _ => some Config.opBrp
  | .inp => none
  | .out => none
  | .otc => none

/-- The word of format A: `100 * opcode + aa` (R81). -/
def formatA (d : Word) (a : Nat) : Word := 100 * d + (a : Word)

/-- The word of an instruction (R81, R84, R107). -/
def encode (p : Config.OpenParams) : Instr → Word
  | .hlt => Config.codeHlt
  | .add a => formatA Config.opAdd a
  | .sub a => formatA Config.opSub a
  | .sta a => formatA Config.opSta a
  | .lda a => formatA Config.opLda a
  | .bra a => formatA Config.opBra a
  | .brz a => formatA Config.opBrz a
  | .brp a => formatA Config.opBrp a
  | .inp => Config.codeInp
  | .out => Config.codeOut
  | .otc => p.otcCode

/-- The word a 16-bit signed container with the bits `w` holds, two's complement.
PRESUMED (G2), safe: every instruction is a non-negative word (log 14). -/
def containerWord (w : Nat) : Word :=
  if w % 65536 < 32768 then ((w % 65536 : Nat) : Word) else ((w % 65536 : Nat) : Word) - 65536

/-- The instruction a decoder with the parameters `p` reads from the container bits `w`, none where it
refuses (R86). -/
def decodeContainer (p : Config.OpenParams) (w : Nat) : Option Instr :=
  match decode p (containerWord w) with
  | .instr i => some i
  | .invalid _ => none

/-- The instruction the unit's decoder reads from the container bits `w`. Every instruction is one word in
one mailbox (R80), so the number of bits given does not matter: the bits above it are 0. -/
def decodeTableWord (_nbits w : Nat) : Option Instr := decodeContainer Machine.unitParams w

end Sys2Proof
end

