-- ==== Sys2Proof/Machine/Fetch.lean ====
section
/-! DEFINITION. The fetch and the decode of a step (R121 phases 1 and 2, R122 to R124), and the placing of
an instruction word where the fetch reads. -/

namespace Sys2Proof.Machine

/-- What the first two phases of a step give. -/
inductive Fetched where
  /-- The instruction to execute and the state with CIR written. -/
  | execute (i : Instr) (s : State)
  /-- The step has ended in an error. -/
  | stopped (f : Fault)
  deriving DecidableEq, Repr

/-- Phase 2: decode CIR; an invalid word ends the step with only CIR written (R124, D6; log 5). -/
def decodeCir (p : Config.OpenParams) (s : State) : Fetched :=
  match decode p s.cir with
  | .instr i => .execute i s
  | .invalid _ => .stopped (raise .badInstruction s)

/-- Phases 1 and 2 of R121. The bounds check comes before the read, and the read writes CIR whatever the
word is (R122, R123). -/
def fetchDecode (p : Config.OpenParams) (s : State) : Fetched :=
  match memRead s s.pc with
  | none => .stopped (raise .pcOutOfBounds s)
  | some w => decodeCir p (s.setCir w)

/-- The step algorithm of R121 under the parameters `p`, with `run` for the execute phase: refused from a
state that is not well-formed (R42), else fetch, decode, execute. -/
def stepBy (p : Config.OpenParams) (run : Instr → State → Host.Outcome State Fault Refusal) (s : State) :
    Host.Outcome State Fault Refusal :=
  if s.WellFormed then
    match fetchDecode p s with
    | .execute i s1 => run i s1
    | .stopped f => .fault f
  else .refused .illFormedState

/-- The word `w` in the mailbox PC points to; where PC points to none, no change (log 13). -/
def placeWord (s : State) (w : Word) : State := (memWrite s s.pc w).getD s

end Sys2Proof.Machine
end

