-- ==== Sys2Proof/Machine/Step.lean ====
section
/-! DEFINITION. One step of the unit (R121): fetch, decode, execute. -/

namespace Sys2Proof.Machine

/-- One step of the unit at the defaults of R9: the step algorithm of R121 with the closed dispatch. -/
def step (s : State) : Host.Outcome State Fault Refusal := stepBy unitParams exec s

/-- `s` with the instruction whose container bits are `w` in the mailbox the next step fetches: what the
host does when it loads a one-word program (R53, R228; log 13). -/
def State.withFetchWord (s : State) (_nbits w : Nat) : State := placeWord s (containerWord w)

end Sys2Proof.Machine
end

