-- ==== Sys2Proof/Machine/Assembler.lean ====
section
/-! DEFINITION. The toolchain around the unit (R100 to R112), from the fields of a line on: mnemonics and
arity, the two passes, emission. It is outside the hardware block (R6) and no step uses it; it says which
images the host loads. Splitting a text into fields is left out, its syntax being open (log 19). -/

namespace Sys2Proof.Machine

/-- The mnemonics after their aliases are resolved (R102). -/
inductive Mnemonic where
  | hlt | add | sub | sta | lda | bra | brz | brp | inp | out | otc | dat
  deriving DecidableEq, Repr

/-- The spellings of R102, `STORE`, `LOAD` and `COB` being aliases; any other is rejected. -/
def Mnemonic.ofString (s : String) : Option Mnemonic :=
  if s = "HLT" ∨ s = "COB" then some .hlt
  else if s = "ADD" then some .add
  else if s = "SUB" then some .sub
  else if s = "STA" ∨ s = "STORE" then some .sta
  else if s = "LDA" ∨ s = "LOAD" then some .lda
  else if s = "BRA" then some .bra
  else if s = "BRZ" then some .brz
  else if s = "BRP" then some .brp
  else if s = "INP" then some .inp
  else if s = "OUT" then some .out
  else if s = "OTC" then some .otc
  else if s = "DAT" then some .dat
  else none

/-- An operand as written: a numeric literal or a label reference (R103). -/
inductive AsmOperand where
  | literal (v : Int)
  | label (name : String)
  deriving DecidableEq, Repr

/-- The fields of one source line (R100): `[label] mnemonic [operand]` and the 1-based line number. -/
structure LineFields where
  label : Option String
  mnemonic : String
  operand : Option AsmOperand
  line : Nat
  deriving DecidableEq, Repr

/-- "A Statement is `{optional_label, mnemonic, optional_operand, source_line_number}`" (R100). -/
structure Statement where
  label : Option String
  mnemonic : Mnemonic
  operand : Option AsmOperand
  line : Nat
  deriving DecidableEq, Repr

/-- ParseError (R111), but for a malformed line, which the splitting of a text would report. Each carries its
1-based source line number (R110). -/
inductive ParseError where
  | unknownMnemonic (line : Nat)
  | wrongArity (line : Nat)
  deriving DecidableEq, Repr

/-- AssembleError (R111). Each carries a 1-based source line number (R110); an image that exceeds the
capacity that of the first statement with no mailbox left, the 101st: which line it carries the spec does not
say. DESIGN CHOICE of the model (log 19), safe for the unit. -/
inductive AssembleError where
  | duplicateLabel (name : String) (line : Nat)
  | undefinedLabel (name : String) (line : Nat)
  | operandOutOfRange (line : Nat)
  | imageTooLong (line : Nat)
  deriving DecidableEq, Repr

/-- The source line number an error carries (R110). -/
def ParseError.line : ParseError → Nat
  | .unknownMnemonic n => n
  | .wrongArity n => n

/-- The source line number an error carries (R110). -/
def AssembleError.line : AssembleError → Nat
  | .duplicateLabel _ n => n
  | .undefinedLabel _ n => n
  | .operandOutOfRange n => n
  | .imageTooLong n => n

/-- The line number, then what is wrong there. -/
def lineMessage (n : Nat) (text : String) : String := "line " ++ toString n ++ ": " ++ text

/-- "Errors are human-readable strings carrying the 1-based source line number" (R110). The words for each
cause are R111's; the form of the string is a DESIGN CHOICE of the model (log 19), safe for the unit. -/
def ParseError.message (e : ParseError) : String :=
  lineMessage e.line <|
    match e with
    | .unknownMnemonic _ => "unknown mnemonic"
    | .wrongArity _ => "wrong operand arity"

/-- As `ParseError.message`; an undefined label is named (R111). -/
def AssembleError.message (e : AssembleError) : String :=
  lineMessage e.line <|
    match e with
    | .duplicateLabel name _ => "duplicate label " ++ name
    | .undefinedLabel name _ => "undefined label " ++ name
    | .operandOutOfRange _ => "operand out of range"
    | .imageTooLong _ => "image exceeds capacity"

/-- The opcode digit of an operand-taking mnemonic (R102, R107). -/
def Mnemonic.opcode? : Mnemonic → Option Word
  | .add => some Config.opAdd
  | .sub => some Config.opSub
  | .sta => some Config.opSta
  | .lda => some Config.opLda
  | .bra => some Config.opBra
  | .brz => some Config.opBrz
  | .brp => some Config.opBrp
  | .hlt => none
  | .inp => none
  | .out => none
  | .otc => none
  | .dat => none

/-- The arity that follows from the encoding (R103): one address operand, none, or for DAT a numeric
literal. DAT with no operand or with a label is rejected, the spec leaving it open (N11; log 19). -/
def Mnemonic.arityOk (m : Mnemonic) (o : Option AsmOperand) : Bool :=
  match m, o with
  | .dat, some (.literal _) => true
  | .dat, _ => false
  | m, some _ => m.opcode?.isSome
  | m, none => m.opcode?.isNone

/-- One line's fields to a Statement (R102, R103). -/
def parseLine (f : LineFields) : Except ParseError Statement :=
  match Mnemonic.ofString f.mnemonic with
  | none => .error (.unknownMnemonic f.line)
  | some m =>
    if m.arityOk f.operand then
      .ok { label := f.label, mnemonic := m, operand := f.operand, line := f.line }
    else .error (.wrongArity f.line)

/-- All lines or the first error, never a prefix (R110). -/
def parseLines : List LineFields → Except ParseError (List Statement)
  | [] => .ok []
  | f :: fs =>
    match parseLine f with
    | .error e => .error e
    | .ok st =>
      match parseLines fs with
      | .error e => .error e
      | .ok sts => .ok (st :: sts)

/-- The Symbol Table: each label with its mailbox address (R104). -/
abbrev SymbolTable := List (String × Nat)

/-- Pass 1: statement `i` is at address `i`; a label seen twice fails assembly (R105). The error carries the
source line of the second definition, where the walk meets it: R105 and R110 do not say which of the two lines
it is. DESIGN CHOICE of the model (log 19), safe for the unit. -/
def passOne : Nat → SymbolTable → List Statement → Except AssembleError SymbolTable
  | _, tab, [] => .ok tab
  | addr, tab, st :: sts =>
    match st.label with
    | none => passOne (addr + 1) tab sts
    | some name =>
      if (tab.lookup name).isSome then .error (.duplicateLabel name st.line)
      else passOne (addr + 1) ((name, addr) :: tab) sts

/-- The address an operand stands for: a literal from 0 to 99, or a label of the Symbol Table (R106). -/
def resolveAddress (tab : SymbolTable) (line : Nat) : AsmOperand → Except AssembleError Nat
  | .literal v =>
    if 0 ≤ v ∧ v < Config.memSize then .ok v.toNat else .error (.operandOutOfRange line)
  | .label name =>
    match tab.lookup name with
    | some a => .ok a
    | none => .error (.undefinedLabel name line)

/-- The word of a statement without an operand (R107). DESIGN CHOICE of the model (log 19): OTC emits
`OTC_CODE` whether or not `HAS_OTC` is true, as R107 says without a condition; without OTC that word is
invalid, where R91 says that only DAT emits an invalid word. Safe for the unit, which fails on that word. -/
def fixedCode (p : Config.OpenParams) : Mnemonic → Option Word
  | .hlt => some Config.codeHlt
  | .inp => some Config.codeInp
  | .out => some Config.codeOut
  | .otc => some p.otcCode
  | .add => none
  | .sub => none
  | .sta => none
  | .lda => none
  | .bra => none
  | .brz => none
  | .brp => none
  | .dat => none

/-- Pass 2 for one statement: resolve the operand and emit the word (R106, R107, R108). A statement whose
operand its mnemonic cannot take has been refused by the parser; here it reads as an operand out of
range. -/
def emitStatement (p : Config.OpenParams) (tab : SymbolTable) (st : Statement) :
    Except AssembleError Word :=
  match st.mnemonic.opcode?, fixedCode p st.mnemonic, st.operand with
  | some d, _, some o =>
    match resolveAddress tab st.line o with
    | .ok a => .ok (formatA d a)
    | .error e => .error e
  | none, some c, none => .ok c
  | none, none, some (.literal v) =>
    if Config.InWord v then .ok v else .error (.operandOutOfRange st.line)
  | _, _, _ => .error (.operandOutOfRange st.line)

/-- Pass 2 (R106): all words or the first error (R110). -/
def passTwo (p : Config.OpenParams) (tab : SymbolTable) : List Statement → Except AssembleError (List Word)
  | [] => .ok []
  | st :: sts =>
    match emitStatement p tab st with
    | .error e => .error e
    | .ok w =>
      match passTwo p tab sts with
      | .error e => .error e
      | .ok ws => .ok (w :: ws)

/-- `assemble(statements)` (R105 to R111): more than 100 statements exceed the mailbox capacity (R109), and
the error is reported at the first of them that has no mailbox (R110; log 19). -/
def assemble (p : Config.OpenParams) (sts : List Statement) : Except AssembleError (List Word) :=
  match sts[Config.memSize]? with
  | some st => .error (.imageTooLong st.line)
  | none =>
    match passOne 0 [] sts with
    | .error e => .error e
    | .ok tab => passTwo p tab sts

end Sys2Proof.Machine
end

