-- ==== Sys2Proof/Machine/Configured.lean ====
section
/-! DEFINITION. The unit under any configuration (R10): `wrapAcc` reaches ADD and SUB, `HAS_OTC` and
`OTC_CODE` reach the decoder, and nothing else depends on them. `exec` and `step` are this unit at the
defaults of R9. -/

namespace Sys2Proof.Machine

/-- The execute phase under the configuration `p` (R10, R126). -/
def execWith (p : Config.OpenParams) (i : Instr) (s : State) : Host.Outcome State Fault Refusal :=
  match i with
  | .hlt => execHlt s
  | .add a => addWith p a s
  | .sub a => subWith p a s
  | .sta a => execSta a s
  | .lda a => execLda a s
  | .bra a => execBra a s
  | .brz a => execBrz a s
  | .brp a => execBrp a s
  | .inp => execInp s
  | .out => execOut s
  | .otc => execOtc s

/-- One step of the unit under the configuration `p` (R10, R121). -/
def stepWith (p : Config.OpenParams) (s : State) : Host.Outcome State Fault Refusal :=
  stepBy p (execWith p) s

/-- The machine under the configuration `p` (R10). -/
def coreWith (p : Config.OpenParams) : Host.Core where
  State := State
  Fault := Fault
  Refusal := Refusal
  step := stepWith p
  reset := State.reset

end Sys2Proof.Machine
end

