-- ==== Sys2Proof/Machine/HostOps.lean ====
section
/-! DEFINITION. What the host may do between steps (R231, R234), and the predicate by which it detects the
end of a run (R186). None of these is part of a step (R40; log 20). -/

namespace Sys2Proof.Machine

/-- The Machine State, "the exact shape serialized across the transport boundary" (R34): the five registers
and the full 100 mailboxes. -/
structure MachineState where
  pc : Nat
  acc : Word
  cir : Word
  mar : Nat
  mdr : Word
  ram : List Word
  deriving DecidableEq, Repr

/-- The 100 words of the mailboxes, in address order (R34). -/
def Memory.toImage (m : Memory) : List Word := (List.range Config.memSize).map m.read

/-- Save: a copy of all six fields (R234). -/
def State.machineState (s : State) : MachineState :=
  { pc := s.pc, acc := s.acc, cir := s.cir, mar := s.mar, mdr := s.mdr, ram := s.mem.toImage }

/-- Set or restore: all registers and mailboxes written by the host (R230, R231). What belongs to the
boundary is left as it is. -/
def State.restore (s : State) (m : MachineState) : State :=
  { s with pc := m.pc, acc := m.acc, cir := m.cir, mar := m.mar, mdr := m.mdr,
           mem := Memory.ofImage m.ram }

/-- Asserting `reset` between steps: the five registers to 0, the mailboxes untouched, no I/O, no outcome
(R220). -/
def State.assertReset (s : State) : State :=
  { s with pc := 0, acc := 0, cir := 0, mar := 0, mdr := 0,
           report := { result := none, inTake := false, output := none } }

/-- A Memory Image: at most 100 words (R53), each a legal word (R228). -/
abbrev ImageOk (ws : List Word) : Prop := ws.length ≤ Config.memSize ∧ ∀ w ∈ ws, Config.InWord w

/-- Loading an image: its words from address 0, zeros in every mailbox after them; what is no image is not
loaded (R53, R228). -/
def State.loadImage (s : State) (ws : List Word) : Option State :=
  if ImageOk ws then some (s.setMem (Memory.ofImage ws)) else none

/-- What the host has done before the first step of a run (R228): loaded the image, then reset the
registers. The I/O capability is the one already in place. -/
def State.launch (s : State) (ws : List Word) : Option State := (s.loadImage ws).map State.assertReset

/-- More answers to `In()` become known; they stand after those already scheduled (log 7). -/
def State.schedule (s : State) (more : List (Option Word)) : State := s.setAnswers (s.answers ++ more)

/-- Supplying one input value (R234). The spec leaves open in which order a capability hands out the values
it was supplied, and when each is available (R8, R171, N14, U16). DESIGN CHOICE of the model (log 7): the
value becomes the last of the scheduled answers, so values supplied by this move come out first supplied
first, and after every answer already scheduled, "not available" ones included. Another order is another
list `answers`, over which every statement ranges. Unsafe for a claim about a run in which the host supplies
by this move, safe otherwise. -/
def State.supplyInput (s : State) (v : Word) : State := s.schedule [some v]

/-- Collecting the output: the host takes the records and its list is empty again (R173, R234). -/
def State.collectOutput (s : State) : List OutputRecord × State := (s.outputs, s.setOutputs [])

/-- `AtHalt`: `0 <= PC <= 99` and `RAM[PC] = 0` (R186, D25). -/
abbrev AtHalt (s : State) : Prop := s.pc < Config.memSize ∧ s.mem.read s.pc = Config.codeHlt

end Sys2Proof.Machine
end

