-- ==== Sys2Proof/Safety.lean ====
section
/-! DEFINITION. Runs (R187): what the host can say of a run at a state, the run as a sequence of states, its
ends, the infinite run; and the relations between states that claims use. -/

namespace Sys2Proof.Machine

/-- What a run can be at one of its states (R187). -/
inductive RunStatus where
  /-- "over, with success, at the first state that is at halt": this state. -/
  | halted (s : State)
  /-- "over, with failure, at the first step whose outcome is" an error. -/
  | failed (f : Fault)
  /-- "suspended, not over, after a step with outcome `NeedInput`": the state the paused step leaves. -/
  | suspended (s : State)
  /-- The step completed; the run goes on from this state. -/
  | running (s : State)
  /-- The spec gives the step no meaning (R42, R172). -/
  | noMeaning (r : Refusal)
  deriving DecidableEq, Repr

/-- The host's protocol at one state of a run: a state that is not well-formed begins no run (R42); test
`AtHalt`, and do not step a machine at halt (R186); else step and look at the outcome (R187). -/
def runStatus (s : State) : RunStatus :=
  if ¬ s.WellFormed then .noMeaning .illFormedState
  else if AtHalt s then .halted s
  else
    match step s with
    | .next t => if t.report.result = some .needInput then .suspended t else .running t
    | .fault f => .failed f
    | .refused r => .noMeaning r

/-- Where a run goes from one of its states: to the state the step leaves, a paused one too, from which the
host steps again (R175, R187); nowhere once it is over. -/
def RunStatus.continues : RunStatus → Option State
  | .halted _ => none
  | .failed _ => none
  | .suspended s => some s
  | .running s => some s
  | .noMeaning _ => none

/-- What the I/O capability answers in the course of a run, the free input of its INP steps (R128, R171): the
answers to `In()` that become known before step number `n`. They come after the answers the state holds, so
that the invocations of `In()` are answered by the state's list, then `feed 0`, `feed 1` and so on, without
end. No sequence of answers is left out: where one is known before each step, the `j`-th invocation comes at
step `j` or later. It is no part of State, which is plain data (log 7). -/
abbrev InputFeed := Nat → List (Option Word)

/-- Nothing beyond the answers the state holds: when they are used up, no input is available. -/
def InputFeed.silent : InputFeed := fun _ => []

/-- The run from `s` as a sequence of states: the state before step number `n`, none where the run was over,
or was without meaning, before (R187). The host makes no move during the run but to step (R231; log 20); what
input arrives, and when, is `feed`. -/
def runState (feed : InputFeed) : Nat → State → Option State
  | 0, s => if s.WellFormed then some (s.schedule (feed 0)) else none
  | n + 1, s =>
    (runState feed n s).bind fun t => (runStatus t).continues.map fun u => u.schedule (feed (n + 1))

/-- The status of the run from `s` at its state number `n`. -/
def runStatusAt (feed : InputFeed) (n : Nat) (s : State) : Option RunStatus :=
  (runState feed n s).map runStatus

/-- The run from `s` is over, with success, in the state `t` after `n` steps (R187). -/
def RunSucceeds (feed : InputFeed) (s : State) (n : Nat) (t : State) : Prop :=
  runStatusAt feed n s = some (.halted t)

/-- The run from `s` is over, with failure, at the step that follows its first `n` (R187). -/
def RunFails (feed : InputFeed) (s : State) (n : Nat) (f : Fault) : Prop :=
  runStatusAt feed n s = some (.failed f)

/-- The run from `s` is suspended after the step that follows its first `n`, in the state `t` (R187). -/
def RunSuspends (feed : InputFeed) (s : State) (n : Nat) (t : State) : Prop :=
  runStatusAt feed n s = some (.suspended t)

/-- "A run that never reaches one of these is infinite" (R187): every step completes and no state is at
halt. -/
def RunIsInfinite (feed : InputFeed) (s : State) : Prop :=
  ∀ n, ∃ t, runStatusAt feed n s = some (.running t)

/-- The Machine State an error leaves for the host to see, none for a stop that is the model's own
(R190, R191). -/
def Fault.stateLeft : Fault → Option State
  | .pcOutOfBounds s => some s
  | .badInstruction s => some s
  | .noMailbox _ => none

/-- The two states hold the same Machine State (R34): everything the next step may depend on but the answer
of the I/O capability (R33). -/
def SameMachine (s t : State) : Prop :=
  s.pc = t.pc ∧ s.acc = t.acc ∧ s.cir = t.cir ∧ s.mar = t.mar ∧ s.mdr = t.mdr ∧ s.mem = t.mem

/-- Two steps had the same effect: the same kind of outcome, the same Machine State left, the same report
(R33, R128). -/
def SameEffect : Host.Outcome State Fault Refusal → Host.Outcome State Fault Refusal → Prop
  | .next s, .next t => SameMachine s t ∧ s.report = t.report
  | .fault (.pcOutOfBounds s), .fault (.pcOutOfBounds t) => SameMachine s t ∧ s.report = t.report
  | .fault (.badInstruction s), .fault (.badInstruction t) => SameMachine s t ∧ s.report = t.report
  | .fault (.noMailbox a), .fault (.noMailbox b) => a = b
  | .refused r, .refused q => r = q
  | _, _ => False

end Sys2Proof.Machine
end

