-- ==== Sys2Proof/Certificates/Slice0/Obligations.lean ====
section
/-! DEFINITION. The statements for the provers. Each docstring names the rule of spec/ or the section it
rests on; where a clause is the spec's own decision D<n> or the model's choice, it says so with the log. -/

open Sys2Proof Sys2Proof.Machine

/-! ## What each instruction does: its completion and its result -/

/-- 45_halt.md section 1: HLT completes in every state and changes nothing but the report. That PC stays is
the spec's decision D2 (log 17). -/
def Obligations.HltCompletesAndChangesNothing : Prop :=
  ∀ s : State, decode unitParams 0 = .instr .hlt ∧ exec .hlt s = .next (s.setReport okReport)

/-- R141. The overflow law is named `unitParams.wrapAcc`; what it gives is the spec's decision D1 (log 3) and
is stated apart, in `OverflowLawWrapsSymmetrically`. -/
def Obligations.AddCompletes : Prop :=
  ∀ (a : Nat) (s : State), a < Config.memSize →
    decode unitParams (100 + (a : Int)) = .instr (.add a) ∧
    ∃ t, exec (.add a) s = .next t ∧
      t.mdr = s.mem.read a ∧
      t.acc = unitParams.wrapAcc (s.acc + s.mem.read a) ∧
      t.pc = s.pc + 1 ∧
      t.report.result = some .ok ∧
      ∀ b, memRead t b = memRead s b

/-- R142: the memory word is taken from the accumulator, never the reverse. The overflow law as in
`AddCompletes`. -/
def Obligations.SubCompletes : Prop :=
  ∀ (a : Nat) (s : State), a < Config.memSize →
    decode unitParams (200 + (a : Int)) = .instr (.sub a) ∧
    ∃ t, exec (.sub a) s = .next t ∧
      t.mdr = s.mem.read a ∧
      t.acc = unitParams.wrapAcc (s.acc - s.mem.read a) ∧
      t.pc = s.pc + 1 ∧
      t.report.result = some .ok ∧
      ∀ b, memRead t b = memRead s b

/-- 42_load_store.md section 2. That MDR holds the stored word is the spec's decision D8 (log 12). -/
def Obligations.StaCompletes : Prop :=
  ∀ (a : Nat) (s : State), s.mem.wf = true → a < Config.memSize →
    decode unitParams (300 + (a : Int)) = .instr (.sta a) ∧
    ∃ t, exec (.sta a) s = .next t ∧
      t.mdr = s.acc ∧
      memRead t a = some s.acc ∧
      (∀ b, b ≠ a → memRead t b = memRead s b) ∧
      t.acc = s.acc ∧
      t.pc = s.pc + 1 ∧
      t.report.result = some .ok

/-- 42_load_store.md section 3. That the word passes through MDR is the spec's decision D8 (log 12). -/
def Obligations.LdaCompletes : Prop :=
  ∀ (a : Nat) (s : State), a < Config.memSize →
    decode unitParams (500 + (a : Int)) = .instr (.lda a) ∧
    ∃ t, exec (.lda a) s = .next t ∧
      t.mdr = s.mem.read a ∧
      t.acc = s.mem.read a ∧
      t.pc = s.pc + 1 ∧
      t.report.result = some .ok ∧
      ∀ b, memRead t b = memRead s b

/-- R160. -/
def Obligations.BraCompletes : Prop :=
  ∀ (a : Nat) (s : State), a < Config.memSize →
    decode unitParams (600 + (a : Int)) = .instr (.bra a) ∧
    ∃ t, exec (.bra a) s = .next t ∧ t.pc = a ∧ t.acc = s.acc ∧ t.report.result = some .ok

/-- R161. -/
def Obligations.BrzCompletes : Prop :=
  ∀ (a : Nat) (s : State), a < Config.memSize →
    decode unitParams (700 + (a : Int)) = .instr (.brz a) ∧
    ∃ t, exec (.brz a) s = .next t ∧
      (t.pc = if s.acc = 0 then a else s.pc + 1) ∧ t.acc = s.acc ∧ t.report.result = some .ok

/-- R162: zero counts as positive. -/
def Obligations.BrpCompletes : Prop :=
  ∀ (a : Nat) (s : State), a < Config.memSize →
    decode unitParams (800 + (a : Int)) = .instr (.brp a) ∧
    ∃ t, exec (.brp a) s = .next t ∧
      (t.pc = if 0 ≤ s.acc then a else s.pc + 1) ∧ t.acc = s.acc ∧ t.report.result = some .ok

/-- R174: on success the value is in ACC and PC advances; on failure nothing of the
Machine State is changed, no value is consumed, and the step pauses. `s.answers.head?.join = none` says that
the capability answers `(_, false)`; `filterMap id` lists the values still to be offered. -/
def Obligations.InpTakesAValueOrPauses : Prop :=
  decode unitParams 901 = .instr .inp ∧
  (∀ (s : State) (v : Word) (rest : List (Option Word)),
    s.answers = some v :: rest → Config.InWord v →
    ∃ t, exec .inp s = .next t ∧
      t.acc = v ∧ t.pc = s.pc + 1 ∧ t.answers = rest ∧ t.report.result = some .ok ∧
      t.mar = s.mar ∧ t.mdr = s.mdr ∧ ∀ b, memRead t b = memRead s b) ∧
  (∀ s : State, s.answers.head?.join = none →
    ∃ t, exec .inp s = .next t ∧
      SameMachine t s ∧ t.report.result = some .needInput ∧ t.outputs = s.outputs ∧
      t.answers.filterMap id = s.answers.filterMap id)

/-- 44_io.md section 1, the spec's decision D10 (log 8): an input value outside -999 to 999 gives the step no
meaning. -/
def Obligations.InpRefusesAValueOutOfRange : Prop :=
  ∀ (s : State) (v : Word) (rest : List (Option Word)),
    s.answers = some v :: rest → ¬ Config.InWord v → exec .inp s = .refused (.inputOutOfRange v)

/-- R176. -/
def Obligations.OutCompletes : Prop :=
  ∀ s : State, decode unitParams 902 = .instr .out ∧
    ∃ t, exec .out s = .next t ∧
      t.outputs = s.outputs ++ [{ value := s.acc, kind := .numeric }] ∧
      t.report.output = some { value := s.acc, kind := .numeric } ∧
      t.pc = s.pc + 1 ∧ t.acc = s.acc ∧ t.mar = s.mar ∧ t.mdr = s.mdr ∧
      t.report.result = some .ok

/-- 44_io.md section 4. That the unit has OTC, at the word `unitParams.otcCode`, is the spec's decision D5
(log 4). -/
def Obligations.OtcCompletes : Prop :=
  ∀ s : State, decode unitParams unitParams.otcCode = .instr .otc ∧
    ∃ t, exec .otc s = .next t ∧
      t.outputs = s.outputs ++ [{ value := s.acc, kind := .character }] ∧
      t.report.output = some { value := s.acc, kind := .character } ∧
      t.pc = s.pc + 1 ∧ t.acc = s.acc ∧ t.mar = s.mar ∧ t.mdr = s.mdr ∧
      t.report.result = some .ok

/-! ## What each instruction leaves unchanged -/

/-- The frame of ADD, SUB and LDA (10_state.md section 7): MDR, ACC and PC change; MAR is the operand, which
is the spec's decision D7 (log 11); all else is unchanged. -/
def Obligations.AddSubLdaFrame : Prop :=
  ∀ (a : Nat) (i : Instr) (s t : State), i = .add a ∨ i = .sub a ∨ i = .lda a →
    exec i s = .next t →
    t.cir = s.cir ∧ t.mar = a ∧ t.answers = s.answers ∧ t.outputs = s.outputs ∧
      t.report.inTake = false ∧ t.report.output = none ∧ ∀ b, memRead t b = memRead s b

/-- The frame of STA (10_state.md section 7). It stores at the effective address of its operand, one mailbox;
MAR as D7 (log 11). -/
def Obligations.StaFrame : Prop :=
  ∀ (a : Nat) (s t : State), s.mem.wf = true → exec (.sta a) s = .next t →
    t.acc = s.acc ∧ t.cir = s.cir ∧ t.mar = a ∧ t.answers = s.answers ∧ t.outputs = s.outputs ∧
      t.report.inTake = false ∧ t.report.output = none ∧
      ∀ b, b ≠ effectiveAddress (latchOperand a s) → memRead t b = memRead s b

/-- The frame of the branches (43_branch.md section 1): PC changes and MAR is the operand, taken or not, the
spec's decision D7 (log 11); all else is unchanged, MDR by the spec's decision D8 (log 12). -/
def Obligations.BranchFrame : Prop :=
  ∀ (a : Nat) (i : Instr) (s t : State), i = .bra a ∨ i = .brz a ∨ i = .brp a →
    exec i s = .next t →
    t.acc = s.acc ∧ t.cir = s.cir ∧ t.mar = a ∧ t.mdr = s.mdr ∧ t.answers = s.answers ∧
      t.outputs = s.outputs ∧ t.report.inTake = false ∧ t.report.output = none ∧
      ∀ b, memRead t b = memRead s b

/-- The frame of INP, OUT and OTC (10_state.md section 7): none writes CIR, MAR, MDR or a mailbox; only INP
writes ACC and uses up an answer; only OUT and OTC emit. For MAR and MDR the spec's decisions D7, D8
(logs 11, 12). -/
def Obligations.InputOutputFrame : Prop :=
  ∀ (i : Instr) (s t : State), i = .inp ∨ i = .out ∨ i = .otc → exec i s = .next t →
    t.cir = s.cir ∧ t.mar = s.mar ∧ t.mdr = s.mdr ∧ (∀ b, memRead t b = memRead s b) ∧
      (i = .inp → t.outputs = s.outputs ∧ t.report.output = none) ∧
      (i ≠ .inp → t.acc = s.acc ∧ t.answers = s.answers ∧ t.report.inTake = false)

/-! ## The step -/

/-- 40_step_cycle.md section 1: when the word at PC decodes to an instruction, the step is that instruction
run in the state with CIR holding the word. -/
def Obligations.StepRunsTheDecodedInstruction : Prop :=
  ∀ (s : State) (i : Instr), s.WellFormed → s.pc < Config.memSize →
    decode unitParams (s.mem.read s.pc) = .instr i →
    step s = exec i (s.setCir (s.mem.read s.pc))

/-- 60_exceptions.md section 1: a fetch at PC 100 to 127 ends the step with PcOutOfBounds and nothing is
written, CIR included, the spec's decisions D6 and D9 (logs 5, 15). -/
def Obligations.FetchOutOfBoundsWritesNothing : Prop :=
  ∀ s : State, s.WellFormed → Config.memSize ≤ s.pc →
    ∃ left, step s = .fault (.pcOutOfBounds left) ∧ SameMachine left s ∧
      left.report.result = some .errPcOutOfBounds

/-- 60_exceptions.md section 1: an invalid word ends the step with BadInstruction; CIR holds the word, the
spec's decision D6 (log 5), and nothing else is written. -/
def Obligations.BadInstructionWritesOnlyCir : Prop :=
  ∀ (s : State) (why : InvalidWord), s.WellFormed → s.pc < Config.memSize →
    decode unitParams (s.mem.read s.pc) = .invalid why →
    ∃ left, step s = .fault (.badInstruction left) ∧
      SameMachine left (s.setCir (s.mem.read s.pc)) ∧
      left.report.result = some .errBadInstruction

/-- R197: whatever error ends a step, the failing instruction has had no effect on PC, ACC, MAR, MDR, memory
or I/O, and the error is one of the two of the spec. -/
def Obligations.ErrorsArePrecise : Prop :=
  ∀ (s : State) (f : Fault), step s = .fault f →
    ∃ left, f.stateLeft = some left ∧
      left.pc = s.pc ∧ left.acc = s.acc ∧ left.mar = s.mar ∧ left.mdr = s.mdr ∧
      (∀ a, memRead left a = memRead s a) ∧
      left.answers = s.answers ∧ left.outputs = s.outputs ∧
      left.report.inTake = false ∧ left.report.output = none

/-- 60_exceptions.md section 5: the unit keeps no fault bit, so stepping the state an error left gives the
same error again; that a host may do so at all is the spec's decision D22 (log 5). -/
def Obligations.ErrorsRecur : Prop :=
  ∀ (s left : State) (f : Fault), step s = .fault f → f.stateLeft = some left → step left = .fault f

/-- R198: the unit has a defined outcome for every well-formed Machine State, whatever words the mailboxes
hold, when the I/O capability keeps its contract. -/
def Obligations.EveryWellFormedStateHasAnOutcome : Prop :=
  ∀ s : State, s.WellFormed →
    (∀ v rest, s.answers = some v :: rest → Config.InWord v) →
    (∃ t, step s = .next t ∧ (t.report.result = some .ok ∨ t.report.result = some .needInput)) ∨
    (∃ left, step s = .fault (.pcOutOfBounds left) ∧ left.report.result = some .errPcOutOfBounds) ∨
    (∃ left, step s = .fault (.badInstruction left) ∧ left.report.result = some .errBadInstruction)

/-- 10_state.md section 5, the spec's decision D18 (log 6): a state that is not well-formed is refused. -/
def Obligations.IllFormedStateIsRefused : Prop :=
  ∀ s : State, ¬ s.WellFormed → step s = .refused .illFormedState

/-- 10_state.md section 1.4: every step that answers a next state leaves the fetched word in CIR. -/
def Obligations.CirHoldsTheFetchedWord : Prop :=
  ∀ s t : State, step s = .next t → t.cir = s.mem.read s.pc

/-- R38: `In()` exactly once for INP, `Out()` exactly once for OUT or OTC, nothing for any other instruction
or for a step that ends in an error. One invocation of `In()` uses up one answer. -/
def Obligations.IoCapabilityInvokedAtMostOnce : Prop :=
  (∀ s t : State, step s = .next t →
    ∃ i, decode unitParams (s.mem.read s.pc) = .instr i ∧
      t.answers = (if i = .inp then s.answers.tail else s.answers) ∧
      t.outputs = (if i = .out ∨ i = .otc then s.outputs ++ t.report.output.toList else s.outputs) ∧
      (t.report.output.isSome = true ↔ i = .out ∨ i = .otc)) ∧
  (∀ (s left : State) (f : Fault), step s = .fault f → f.stateLeft = some left →
    left.answers = s.answers ∧ left.outputs = s.outputs)

/-- 10_state.md section 4, the spec's decision D24 (log 7): in_take is driven exactly by an INP that finds a
value, and then that value is consumed: it is the one used up and it is in ACC. -/
def Obligations.InTakeExactlyWhenAValueIsConsumed : Prop :=
  ∀ s t : State, step s = .next t →
    (t.report.inTake = true ↔
      decode unitParams (s.mem.read s.pc) = .instr .inp ∧ ∃ v rest, s.answers = some v :: rest) ∧
    ∀ v rest, t.report.inTake = true → s.answers = some v :: rest → t.answers = rest ∧ t.acc = v

/-- R175: a pause leaves PC, so that the next step fetches the same INP again; it executes it from the start,
nothing of the paused step being remembered: with the same answers it has the effect it has from the state
before the pause. A retry with still no input pauses again and changes nothing; a retry with a value
completes the INP. -/
def Obligations.PauseIsRetried : Prop :=
  ∀ s t : State, step s = .next t → t.report.result = some .needInput →
    t.pc = s.pc ∧ t.mem.read t.pc = s.mem.read s.pc ∧
    decode unitParams (t.mem.read t.pc) = .instr .inp ∧
    (∀ answers, SameEffect (step (t.setAnswers answers)) (step (s.setAnswers answers))) ∧
    (t.answers.head?.join = none →
      ∃ u, step t = .next u ∧ SameMachine u t ∧ u.report.result = some .needInput) ∧
    (∀ v rest, t.answers = some v :: rest → Config.InWord v →
      ∃ u, step t = .next u ∧ u.acc = v ∧ u.pc = t.pc + 1 ∧ u.report.result = some .ok)

/-- R33: the next step is a function of the Machine State and of the answer of the I/O capability, and of
nothing else. -/
def Obligations.StepDependsOnMachineStateAndAnswerOnly : Prop :=
  ∀ s t : State, SameMachine s t → s.answers.head?.join = t.answers.head?.join →
    SameEffect (step s) (step t)

/-- 45_halt.md section 2: a step at halt is a stutter, and a second one is the identity (the spec's decision
D2, log 17). -/
def Obligations.StepAtHaltIsAStutter : Prop :=
  ∀ s : State, s.WellFormed → AtHalt s →
    ∃ t, step s = .next t ∧ t = (s.setCir 0).setReport okReport ∧ AtHalt t ∧ step t = .next t

/-- 20_memory.md section 5 (R65): a word stored by STA is the word the next step fetches, or any later step
from a state `r` in which that mailbox still reads the same, if PC then points to it. The fetched word is read
off CIR; that CIR holds it after BadInstruction too is the spec's decision D6 (log 5), which R65 does not
state. -/
def Obligations.StoreIsSeenByTheNextFetch : Prop :=
  ∀ (s t : State) (a : Nat), decode unitParams (s.mem.read s.pc) = .instr (.sta a) →
    step s = .next t →
    memRead t a = some s.acc ∧
    ∀ r : State, r.pc = a → memRead r a = memRead t a →
      (∀ u, step r = .next u → u.cir = s.acc) ∧
      (∀ left, step r = .fault (.badInstruction left) → left.cir = s.acc)

/-! ## Rules of the whole machine -/

/-- 20_memory.md section 2: the only instruction that writes memory is STA, and it writes ACC to the mailbox
its operand names. -/
def Obligations.OnlyStaWritesMailboxes : Prop :=
  ∀ (s t : State) (b : Nat), step s = .next t → memRead t b ≠ memRead s b →
    decode unitParams (s.mem.read s.pc) = .instr (.sta b) ∧ memRead t b = some s.acc

/-- 10_state.md section 1.2: ACC is written by ADD, SUB, LDA and a successful INP only. -/
def Obligations.OnlyFourInstructionsWriteAcc : Prop :=
  ∀ s t : State, step s = .next t → t.acc ≠ s.acc →
    ∃ i, decode unitParams (s.mem.read s.pc) = .instr i ∧
      ((∃ a, i = .add a ∨ i = .sub a ∨ i = .lda a) ∨ (i = .inp ∧ t.report.inTake = true))

/-- 10_state.md section 1.1: how a step advances PC. That HLT leaves it is the spec's decision D2 (log 17). -/
def Obligations.PcAdvancesByOneUnlessBranchHaltOrPause : Prop :=
  ∀ s t : State, step s = .next t →
    ∃ i, decode unitParams (s.mem.read s.pc) = .instr i ∧
      t.pc = match i with
        | .hlt => s.pc
        | .add _ => s.pc + 1
        | .sub _ => s.pc + 1
        | .sta _ => s.pc + 1
        | .lda _ => s.pc + 1
        | .bra a => a
        | .brz a => if s.acc = 0 then a else s.pc + 1
        | .brp a => if 0 ≤ s.acc then a else s.pc + 1
        | .inp => if s.answers.head?.join = none then s.pc else s.pc + 1
        | .out => s.pc + 1
        | .otc => s.pc + 1

/-- 10_state.md section 1.1: execution produces only PC values 0 to 100, from any state a step runs in. -/
def Obligations.StepLeavesPcAtMost100 : Prop :=
  ∀ s t : State, step s = .next t → t.pc ≤ 100

/-- 10_state.md section 5: every step from a well-formed state ends in a well-formed state (the spec derives
it in R43). It rests on the overflow law being in range, the spec's decision D1 (log 3). -/
def Obligations.StepKeepsWellFormed : Prop :=
  ∀ s t : State, s.WellFormed → step s = .next t → t.WellFormed

/-- 10_state.md section 5: an error leaves a well-formed state too. -/
def Obligations.ErrorsLeaveWellFormedStates : Prop :=
  ∀ (s left : State) (f : Fault), s.WellFormed → step s = .fault f → f.stateLeft = some left →
    left.WellFormed

/-- The state after reset is well-formed. Its register values are the spec's decision D11 (log 10), its
mailboxes the model's choice (log 2). -/
def Obligations.ResetStateIsWellFormed : Prop := State.reset.WellFormed

/-! ## Arithmetic -/

/-- 41_arithmetic.md section 1, the spec's decision D1 (log 3): the overflow law is legal, it shifts an
overflowed result by 1999 once, and of the sums that arise only 0 wraps to 0. -/
def Obligations.OverflowLawWrapsSymmetrically : Prop :=
  Config.LegalWrap unitParams.wrapAcc ∧
  ∀ s : Int, -1998 ≤ s → s ≤ 1998 →
    (unitParams.wrapAcc s =
      if 999 < s then s - 1999 else if s < -999 then s + 1999 else s) ∧
    (unitParams.wrapAcc s = 0 ↔ s = 0)

/-- 41_arithmetic.md section 1: what a proof may assume of any legal overflow law is enough for ADD and SUB to
keep the state well-formed and to be exact where the exact result is in range. -/
def Obligations.AnyLegalOverflowLawIsExactInRange : Prop :=
  ∀ (law : Word → Word) (f : Word → Word → Word) (a : Nat) (s : State),
    Config.LegalWrap law → s.WellFormed → s.pc < Config.memSize → a < Config.memSize →
    ∃ t, accumulate law f a s = .next t ∧ t.WellFormed ∧
      (Config.InWord (f s.acc (s.mem.read a)) → t.acc = f s.acc (s.mem.read a))

/-- 95_test_vectors.md section 2.2: SUB undoes ADD, overflow included; under the spec's decision D1
(log 3). -/
def Obligations.SubUndoesAdd : Prop :=
  ∀ (a : Nat) (s t u : State), s.WellFormed → exec (.add a) s = .next t → exec (.sub a) t = .next u →
    u.acc = s.acc

/-! ## Encoding -/

/-- 30_encoding.md section 3: a few words of the opcode map, written out digit by digit. The word 922 is the
spec's decision D5 (log 4). -/
def Obligations.SampleWordsDecode : Prop :=
  decode unitParams 0 = .instr .hlt ∧ decode unitParams 105 = .instr (.add 5) ∧
    decode unitParams 299 = .instr (.sub 99) ∧ decode unitParams 340 = .instr (.sta 40) ∧
    decode unitParams 507 = .instr (.lda 7) ∧ decode unitParams 699 = .instr (.bra 99) ∧
    decode unitParams 700 = .instr (.brz 0) ∧ decode unitParams 808 = .instr (.brp 8) ∧
    decode unitParams 901 = .instr .inp ∧ decode unitParams 902 = .instr .out ∧
    decode unitParams 922 = .instr .otc

/-- R82: a format A word decodes to the instruction of its opcode digit, `w div 100`, whose operand is its two
low decimal digits, `w mod 100`, an absolute mailbox address. For every legal configuration. -/
def Obligations.FormatAOperandIsTwoLowDigits : Prop :=
  ∀ (p : Config.OpenParams) (w : Int), p.Legal → (100 ≤ w ∧ w ≤ 399) ∨ (500 ≤ w ∧ w ≤ 899) →
    ∃ i, decode p w = .instr i ∧ i.opcodeDigit? = some (w / 100) ∧ i.operand? = some (w % 100).toNat ∧
      (w % 100).toNat < Config.memSize

/-- 30_encoding.md section 4: the invalid words are exactly these. That 1 to 99, 900, 903 to 999 and the
negatives are among them is the spec's decisions D3 and D4 (log 18), that 922 is not is D5 (log 4). -/
def Obligations.InvalidWordsAreExactly : Prop :=
  ∀ w : Int, (∃ why, decode unitParams w = .invalid why) ↔
    w < 0 ∨ (1 ≤ w ∧ w ≤ 99) ∨ (400 ≤ w ∧ w ≤ 499) ∨ w = 900 ∨ (903 ≤ w ∧ w ≠ 922)

/-- 30_encoding.md section 3: decoding the word of a well-formed instruction gives it back, for every
instruction, every operand and every legal configuration. For OTC under an `OTC_CODE` in 1 to 99 or 400 to 499
it rests on the model's order of tests, fixed codes first (log 4): R86 read line by line gives Invalid
there. -/
def Obligations.DecodeOfEncodeIsTheInstruction : Prop :=
  ∀ (p : Config.OpenParams) (i : Instr), p.Legal → i.WellFormed p = true →
    decode p (encode p i) = .instr i

/-- 30_encoding.md section 3: a word that decodes is the word of the instruction it decodes to, which is
well-formed; so no two words decode alike. -/
def Obligations.EncodeOfDecodeIsTheWord : Prop :=
  ∀ (p : Config.OpenParams) (w : Word) (i : Instr), decode p w = .instr i →
    encode p i = w ∧ i.WellFormed p = true

/-- 30_encoding.md section 3 and the spec's decision D5 (log 4): without character output the word of OTC is
invalid, and fetching it is a BadInstruction (60_exceptions.md section 1). That it leaves the word in CIR and
writes nothing else is the spec's decision D6 (log 5). -/
def Obligations.OtcWordIsInvalidWithoutOtc : Prop :=
  ∀ (p : Config.OpenParams) (s : State), p.Legal → p.hasOtc = false → s.pc < Config.memSize →
    s.mem.read s.pc = p.otcCode →
    fetchDecode p s = .stopped (.badInstruction (errorState .badInstruction (s.setCir p.otcCode)))

/-! ## Mailboxes, reset, image, saved state -/

/-- R14: MemWrite sets one mailbox and leaves every other unchanged; MemRead returns the mailbox. -/
def Obligations.MemWriteSetsOneMailbox : Prop :=
  ∀ (s : State) (a : Nat) (v : Word), s.mem.wf = true → a < Config.memSize → Config.InWord v →
    memRead s a = some (s.mem.read a) ∧
    ∃ t, memWrite s a v = some t ∧ memRead t a = some v ∧
      (∀ b, b ≠ a → memRead t b = memRead s b) ∧ t = s.setMem t.mem

/-- 20_memory.md section 1: an address from 0 to 99 selects its mailbox, any other selects none and nothing is
read or written. That the port is 7 bits wide is the spec's D9 and plays no part (log 15). -/
def Obligations.AddressDecoderSelectsExactlyTheMailboxes : Prop :=
  ∀ (s : State) (a : Nat) (v : Word),
    ((memRead s a).isSome = true ↔ a ≤ 99) ∧ ((memWrite s a v).isSome = true ↔ a ≤ 99) ∧
      (decodeAddress a = if a ≤ 99 then some a else none)

/-- R53: loading an image sets all 100 mailboxes, its words from address 0 and zeros after; no register
changes; a longer image does not exist. -/
def Obligations.LoadImageSetsAllMailboxes : Prop :=
  (∀ (s : State) (ws : List Word), ws.length ≤ Config.memSize → (∀ w ∈ ws, Config.InWord w) →
    ∃ t, s.loadImage ws = some t ∧ t = s.setMem t.mem ∧ t.mem.wf = true ∧
      (∀ i, i < ws.length → memRead t i = ws[i]?) ∧
      (∀ i, ws.length ≤ i → i < Config.memSize → memRead t i = some 0)) ∧
  (∀ (s : State) (ws : List Word), Config.memSize < ws.length → s.loadImage ws = none)

/-- R34: the Machine State round-trips losslessly through its serialized shape, whose memory is always the
full 100 mailboxes. -/
def Obligations.MachineStateRoundTrips : Prop :=
  ∀ s u : State, s.WellFormed →
    s.machineState.ram.length = 100 ∧ SameMachine (u.restore s.machineState) s

/-- 70_reset_and_hazards.md section 1, the spec's decision D11 (log 10): after reset the five registers are 0;
asserting reset between steps leaves the mailboxes and the I/O untouched and reports no outcome. -/
def Obligations.ResetClearsTheRegisters : Prop :=
  (State.reset.pc = 0 ∧ State.reset.acc = 0 ∧ State.reset.cir = 0 ∧ State.reset.mar = 0 ∧
    State.reset.mdr = 0) ∧
  ∀ s : State,
    s.assertReset.pc = 0 ∧ s.assertReset.acc = 0 ∧ s.assertReset.cir = 0 ∧ s.assertReset.mar = 0 ∧
      s.assertReset.mdr = 0 ∧ s.assertReset.mem = s.mem ∧ s.assertReset.answers = s.answers ∧
      s.assertReset.outputs = s.outputs ∧ s.assertReset.report.result = none

/-! ## The toolchain -/

/-- 30_encoding.md section 5 (R109): the image has one word per statement, at most 100; more statements fail
assembly. That they fail with `imageTooLong`, whatever other error the statements hold, is the model's choice
of an order of errors, and that the error carries the source line of the statement at address 100, the first
that has no mailbox, is the model's choice too (log 19). -/
def Obligations.AssembledImageLength : Prop :=
  (∀ (p : Config.OpenParams) (sts : List Statement) (ws : List Word), assemble p sts = .ok ws →
    ws.length = sts.length ∧ ws.length ≤ 100) ∧
  (∀ (p : Config.OpenParams) (sts : List Statement), 100 < sts.length →
    ∃ st, sts[100]? = some st ∧ assemble p sts = .error (.imageTooLong st.line))

/-- 30_encoding.md section 4: the assembler never emits an invalid word for an instruction mnemonic; only DAT
may. OTC is an instruction when HAS_OTC (the spec's decision D5, log 4); without it the model emits OTC_CODE
all the same (log 19), which this statement does not cover. For an `OTC_CODE` in 1 to 99 or 400 to 499 it rests
on the model's order of tests (log 4). -/
def Obligations.AssemblerEmitsInvalidWordsOnlyForDat : Prop :=
  ∀ (p : Config.OpenParams) (sts : List Statement) (ws : List Word) (k : Nat) (st : Statement) (w : Word),
    p.Legal → p.hasOtc = true → assemble p sts = .ok ws → sts[k]? = some st → ws[k]? = some w →
    st.mnemonic ≠ .dat → ∃ i, decode p w = .instr i

/-- 30_encoding.md section 5 and 20_memory.md section 1: every assembled image is one the host can load. -/
def Obligations.AssembledImageLoads : Prop :=
  ∀ (p : Config.OpenParams) (sts : List Statement) (ws : List Word) (s : State),
    p.Legal → assemble p sts = .ok ws → ∃ t, s.loadImage ws = some t

/-! ## The unit under any configuration -/

/-- 00_scope.md section 4: the unit is the configured unit at the defaults, its step and each instruction.
That the defaults of the open parameters are what they are is the spec's decisions D1 and D5 (logs 3, 4). -/
def Obligations.StepIsTheConfiguredStepAtTheDefaults : Prop :=
  ∀ s : State, step s = stepWith unitParams s ∧ ∀ i, exec i s = execWith unitParams i s

/-- 10_state.md section 5 and 00_scope.md section 4: under every legal configuration every step from a
well-formed state ends in a well-formed state. -/
def Obligations.ConfiguredStepKeepsWellFormed : Prop :=
  ∀ (p : Config.OpenParams) (s t : State), p.Legal → s.WellFormed → stepWith p s = .next t → t.WellFormed

/-- 00_scope.md section 4: the open parameters reach nothing else. Where the fetched word is neither
configuration's OTC_CODE and the exact sum or difference is in range, every legal configuration steps as the
unit does, to the same state, the same fault or the same refusal. -/
def Obligations.ConfigurationsAgreeWithoutOverflowOrOtc : Prop :=
  ∀ (p : Config.OpenParams) (s : State), p.Legal →
    s.mem.read s.pc ≠ p.otcCode → s.mem.read s.pc ≠ unitParams.otcCode →
    (∀ a, decode unitParams (s.mem.read s.pc) = .instr (.add a) →
      Config.InWord (s.acc + s.mem.read a)) →
    (∀ a, decode unitParams (s.mem.read s.pc) = .instr (.sub a) →
      Config.InWord (s.acc - s.mem.read a)) →
    stepWith p s = step s

/-- 00_scope.md section 4 and the spec's decision D5 (log 4): the word OTC_CODE emits the accumulator as a
character with HAS_OTC, and without it ends the step in BadInstruction with only CIR written (D6, log 5). For
an `OTC_CODE` in 1 to 99 or 400 to 499 the first half rests on the model's order of tests (log 4). -/
def Obligations.OtcWordRunsExactlyWithHasOtc : Prop :=
  ∀ (p : Config.OpenParams) (s : State), p.Legal → s.WellFormed → s.pc < Config.memSize →
    s.mem.read s.pc = p.otcCode →
    (p.hasOtc = true → ∃ t, stepWith p s = .next t ∧
      t.outputs = s.outputs ++ [{ value := s.acc, kind := .character }] ∧
      t.pc = s.pc + 1 ∧ t.acc = s.acc ∧ t.cir = p.otcCode ∧ t.report.result = some .ok) ∧
    (p.hasOtc = false → ∃ left, stepWith p s = .fault (.badInstruction left) ∧
      SameMachine left (s.setCir p.otcCode) ∧ left.outputs = s.outputs ∧
      left.report.result = some .errBadInstruction)

/-! ## Runs -/

/-- 45_halt.md section 2, the spec's decision D25 (log 17): a run is over with success at a state of the run
exactly when it is at halt, with failure at a step exactly when the step ends in an error; and once it is over
it has no further state, so both come at the first such point. For every sequence of inputs. -/
def Obligations.RunIsOverAtTheFirstHaltOrError : Prop :=
  ∀ (feed : InputFeed) (s : State) (n : Nat),
    (∀ t, RunSucceeds feed s n t ↔ runState feed n s = some t ∧ AtHalt t) ∧
    (∀ f, RunFails feed s n f ↔ ∃ t, runState feed n s = some t ∧ step t = .fault f) ∧
    ((∃ t, RunSucceeds feed s n t) ∨ (∃ f, RunFails feed s n f) →
      ∀ m, n < m → runState feed m s = none)

/-- 45_halt.md section 2, the spec's decision D25 (log 17): a run from a well-formed state is over with
success, over with one of the spec's two errors, suspended after some step, or infinite. The one other thing
that ends a run of the model is a capability that breaks its contract (the spec's decision D10, log 8). For
every sequence of inputs, unbounded ones included. -/
def Obligations.EveryRunEndsSuspendsOrIsInfinite : Prop :=
  ∀ (feed : InputFeed) (s : State), s.WellFormed →
    (∃ n t, RunSucceeds feed s n t) ∨ (∃ n f left, RunFails feed s n f ∧ f.stateLeft = some left) ∨
    (∃ n t, RunSuspends feed s n t) ∨
    (∃ n v, ¬ Config.InWord v ∧ runStatusAt feed n s = some (.noMeaning (.inputOutOfRange v))) ∨
    RunIsInfinite feed s
end

