-- ==== Sys2Proof/Laws/Assembler.lean ====
section
/-! SUPPORT. The errors of the toolchain: each carries the line of what it was given (R110), and the two
answers of `assemble`. -/

namespace Sys2Proof.Machine

/-- Everything `assemble` can do: too many statements, an error of pass 1, or the answer of pass 2. -/
theorem assemble_cases (p : Config.OpenParams) (sts : List Statement) :
    (∃ st, sts[Config.memSize]? = some st ∧ assemble p sts = .error (.imageTooLong st.line)) ∨
    (sts.length ≤ Config.memSize ∧ ∃ e, passOne 0 [] sts = .error e ∧ assemble p sts = .error e) ∨
    (sts.length ≤ Config.memSize ∧ ∃ tab, passOne 0 [] sts = .ok tab ∧
      assemble p sts = passTwo p tab sts) := by
  unfold assemble
  cases h : sts[Config.memSize]? with
  | some st => exact .inl ⟨st, rfl, rfl⟩
  | none =>
    have hl := List.getElem?_eq_none_iff.1 h
    cases h1 : passOne 0 [] sts with
    | error e => exact .inr (.inl ⟨hl, e, rfl, rfl⟩)
    | ok tab => exact .inr (.inr ⟨hl, tab, rfl, rfl⟩)

theorem parseLine_error_line {f : LineFields} {e : ParseError} (h : parseLine f = .error e) :
    e.line = f.line := by
  unfold parseLine at h
  split at h
  · cases h; rfl
  · split at h <;> cases h; rfl

/-- A parse error carries the line of one of the lines parsed (R110). -/
theorem parseLines_error_line {fs : List LineFields} {e : ParseError} (h : parseLines fs = .error e) :
    ∃ f ∈ fs, e.line = f.line := by
  induction fs with
  | nil => cases h
  | cons f fs ih =>
    rw [parseLines] at h
    split at h
    · cases h; exact ⟨f, .head _, parseLine_error_line ‹_›⟩
    · split at h <;> cases h
      obtain ⟨g, hg, hl⟩ := ih ‹_›
      exact ⟨g, .tail _ hg, hl⟩

theorem passOne_error_line {sts : List Statement} {n : Nat} {tab : SymbolTable} {e : AssembleError}
    (h : passOne n tab sts = .error e) : ∃ st ∈ sts, e.line = st.line := by
  induction sts generalizing n tab with
  | nil => cases h
  | cons st sts ih =>
    rw [passOne] at h
    split at h
    · obtain ⟨u, hu, hl⟩ := ih h
      exact ⟨u, .tail _ hu, hl⟩
    · split at h
      · cases h; exact ⟨st, .head _, rfl⟩
      · obtain ⟨u, hu, hl⟩ := ih h
        exact ⟨u, .tail _ hu, hl⟩

theorem resolveAddress_error_line {tab : SymbolTable} {line : Nat} {o : AsmOperand} {e : AssembleError}
    (h : resolveAddress tab line o = .error e) : e.line = line := by
  unfold resolveAddress at h
  split at h <;> split at h <;> cases h <;> rfl

theorem emitStatement_error_line {p : Config.OpenParams} {tab : SymbolTable} {st : Statement}
    {e : AssembleError} (h : emitStatement p tab st = .error e) : e.line = st.line := by
  unfold emitStatement at h
  split at h
  · split at h <;> cases h
    exact resolveAddress_error_line ‹_›
  · cases h
  · split at h <;> cases h; rfl
  · cases h; rfl

theorem passTwo_error_line {p : Config.OpenParams} {tab : SymbolTable} {sts : List Statement}
    {e : AssembleError} (h : passTwo p tab sts = .error e) : ∃ st ∈ sts, e.line = st.line := by
  induction sts with
  | nil => cases h
  | cons st sts ih =>
    rw [passTwo] at h
    split at h
    · cases h; exact ⟨st, .head _, emitStatement_error_line ‹_›⟩
    · split at h <;> cases h
      obtain ⟨u, hu, hl⟩ := ih ‹_›
      exact ⟨u, .tail _ hu, hl⟩

/-- An assemble error carries the line of one of the statements (R110). -/
theorem assemble_error_line {p : Config.OpenParams} {sts : List Statement} {e : AssembleError}
    (h : assemble p sts = .error e) : ∃ st ∈ sts, e.line = st.line := by
  rcases assemble_cases p sts with ⟨st, hst, h'⟩ | ⟨_, e', h1, h'⟩ | ⟨_, tab, _, h'⟩ <;> rw [h'] at h
  · cases h; exact ⟨st, List.mem_of_getElem? hst, rfl⟩
  · cases h; exact passOne_error_line h1
  · exact passTwo_error_line h

end Sys2Proof.Machine
end

