-- ==== Sys2Proof/Laws/Decode.lean ====
section
/-! SUPPORT. The digits of a format A word and the two halves of the decoder: the pieces the round trips are
built from. -/

namespace Sys2Proof

/-- The operand of a format A word is the one it was made from. -/
theorem operandOf_formatA (d : Word) {a : Nat} (h : a < Config.memSize) :
    operandOf (formatA d a) = a := by
  simp only [Word, Config.memSize, operandOf, formatA] at *; omega

/-- The opcode digit of a format A word is the one it was made from. -/
theorem opcodeDigitOf_formatA (d : Word) {a : Nat} (h : a < Config.memSize) :
    opcodeDigitOf (formatA d a) = d := by
  simp only [Word, Config.memSize, opcodeDigitOf, formatA] at *; omega

/-- An operand is a mailbox address (R82). -/
theorem operandOf_lt (w : Word) : operandOf w < Config.memSize := by
  simp only [Word, operandOf, Config.memSize]; omega

/-- A word is made of its opcode digit and its operand. -/
theorem formatA_digits (w : Word) : formatA (opcodeDigitOf w) (operandOf w) = w := by
  simp only [Word, opcodeDigitOf, operandOf, formatA]; omega

/-- The families of format A, one for each opcode digit. -/
theorem decodeFormatA_eq_some {d : Word} {a : Nat} {i : Instr} :
    decodeFormatA d a = some i ↔ i.opcodeDigit? = some d ∧ i.operand? = some a := by
  unfold decodeFormatA
  constructor
  · intro h
    split_ifs at h <;> cases h <;> subst_vars <;> exact ⟨rfl, rfl⟩
  · rintro ⟨hd, ha⟩
    cases i <;> cases hd <;> cases ha <;> rfl

/-- The fixed codes of format F, each its own instruction. -/
theorem decodeFixed_eq_some {p : Config.OpenParams} {w : Word} {i : Instr}
    (h : decodeFixed p w = some i) : i.operand? = none ∧ encode p i = w ∧ i.WellFormed p = true := by
  unfold decodeFixed at h
  split_ifs at h with h0 h1 h2 h3 <;> cases h
  · exact ⟨rfl, h0.symm, rfl⟩
  · exact ⟨rfl, h1.symm, rfl⟩
  · exact ⟨rfl, h2.symm, rfl⟩
  · exact ⟨rfl, h3.1.symm, h3.2⟩

/-- The word of a format A instruction. -/
theorem encode_formatA {p : Config.OpenParams} {i : Instr} {d : Word} {a : Nat}
    (hd : i.opcodeDigit? = some d) (ha : i.operand? = some a) : encode p i = formatA d a := by
  cases i <;> cases hd <;> cases ha <;> rfl

/-- An opcode digit is one of seven. -/
theorem opcodeDigit_cases {i : Instr} {d : Word} (h : i.opcodeDigit? = some d) :
    d = 1 ∨ d = 2 ∨ d = 3 ∨ d = 5 ∨ d = 6 ∨ d = 7 ∨ d = 8 := by
  cases i <;> cases h <;> decide

/-- An instruction has an opcode digit exactly when it has an operand (R81). -/
theorem opcodeDigit_isSome (i : Instr) : i.opcodeDigit?.isSome = i.operand?.isSome := by
  cases i <;> rfl

/-- Every way a word decodes to an instruction (R86): a fixed code, or an opcode digit and an operand. -/
theorem decode_eq_instr {p : Config.OpenParams} {w : Word} {i : Instr} (h : decode p w = .instr i) :
    0 ≤ w ∧ (decodeFixed p w = some i ∨
      (decodeFixed p w = none ∧ i.opcodeDigit? = some (opcodeDigitOf w) ∧
        i.operand? = some (operandOf w))) := by
  unfold decode at h
  split at h
  · cases h
  · refine ⟨by simp only [Word] at *; omega, ?_⟩
    split at h
    · rename_i hf; cases h; exact .inl hf
    · rename_i hf
      split at h
      · rename_i ha; cases h; exact .inr ⟨hf, decodeFormatA_eq_some.1 ha⟩
      · cases h

/-- The operand of a decoded instruction is a mailbox address (R52, R163). -/
theorem operand_lt_of_decode {p : Config.OpenParams} {w : Word} {i : Instr} (h : decode p w = .instr i)
    {a : Nat} (ha : i.operand? = some a) : a < Config.memSize := by
  rcases (decode_eq_instr h).2 with hf | ⟨_, _, ho⟩
  · rw [(decodeFixed_eq_some hf).1] at ha; cases ha
  · rw [ho] at ha; cases ha; exact operandOf_lt w

end Sys2Proof
end

