-- ==== Sys2Proof/Laws/State.lean ====
section
/-! SUPPORT. One lemma per field per register update (each true by rfl), so that no later proof unfolds a
record update. -/

namespace Sys2Proof.Machine

variable (s : State)

@[simp] theorem State.setPc_pc (v : Nat) : (s.setPc v).pc = v := rfl
@[simp] theorem State.setPc_acc (v : Nat) : (s.setPc v).acc = s.acc := rfl
@[simp] theorem State.setPc_cir (v : Nat) : (s.setPc v).cir = s.cir := rfl
@[simp] theorem State.setPc_mar (v : Nat) : (s.setPc v).mar = s.mar := rfl
@[simp] theorem State.setPc_mdr (v : Nat) : (s.setPc v).mdr = s.mdr := rfl
@[simp] theorem State.setPc_mem (v : Nat) : (s.setPc v).mem = s.mem := rfl
@[simp] theorem State.setPc_answers (v : Nat) : (s.setPc v).answers = s.answers := rfl
@[simp] theorem State.setPc_outputs (v : Nat) : (s.setPc v).outputs = s.outputs := rfl
@[simp] theorem State.setPc_report (v : Nat) : (s.setPc v).report = s.report := rfl

@[simp] theorem State.setAcc_pc (v : Word) : (s.setAcc v).pc = s.pc := rfl
@[simp] theorem State.setAcc_acc (v : Word) : (s.setAcc v).acc = v := rfl
@[simp] theorem State.setAcc_cir (v : Word) : (s.setAcc v).cir = s.cir := rfl
@[simp] theorem State.setAcc_mar (v : Word) : (s.setAcc v).mar = s.mar := rfl
@[simp] theorem State.setAcc_mdr (v : Word) : (s.setAcc v).mdr = s.mdr := rfl
@[simp] theorem State.setAcc_mem (v : Word) : (s.setAcc v).mem = s.mem := rfl
@[simp] theorem State.setAcc_answers (v : Word) : (s.setAcc v).answers = s.answers := rfl
@[simp] theorem State.setAcc_outputs (v : Word) : (s.setAcc v).outputs = s.outputs := rfl
@[simp] theorem State.setAcc_report (v : Word) : (s.setAcc v).report = s.report := rfl

@[simp] theorem State.setCir_pc (v : Word) : (s.setCir v).pc = s.pc := rfl
@[simp] theorem State.setCir_acc (v : Word) : (s.setCir v).acc = s.acc := rfl
@[simp] theorem State.setCir_cir (v : Word) : (s.setCir v).cir = v := rfl
@[simp] theorem State.setCir_mar (v : Word) : (s.setCir v).mar = s.mar := rfl
@[simp] theorem State.setCir_mdr (v : Word) : (s.setCir v).mdr = s.mdr := rfl
@[simp] theorem State.setCir_mem (v : Word) : (s.setCir v).mem = s.mem := rfl
@[simp] theorem State.setCir_answers (v : Word) : (s.setCir v).answers = s.answers := rfl
@[simp] theorem State.setCir_outputs (v : Word) : (s.setCir v).outputs = s.outputs := rfl
@[simp] theorem State.setCir_report (v : Word) : (s.setCir v).report = s.report := rfl

@[simp] theorem State.setMar_pc (v : Nat) : (s.setMar v).pc = s.pc := rfl
@[simp] theorem State.setMar_acc (v : Nat) : (s.setMar v).acc = s.acc := rfl
@[simp] theorem State.setMar_cir (v : Nat) : (s.setMar v).cir = s.cir := rfl
@[simp] theorem State.setMar_mar (v : Nat) : (s.setMar v).mar = v := rfl
@[simp] theorem State.setMar_mdr (v : Nat) : (s.setMar v).mdr = s.mdr := rfl
@[simp] theorem State.setMar_mem (v : Nat) : (s.setMar v).mem = s.mem := rfl
@[simp] theorem State.setMar_answers (v : Nat) : (s.setMar v).answers = s.answers := rfl
@[simp] theorem State.setMar_outputs (v : Nat) : (s.setMar v).outputs = s.outputs := rfl
@[simp] theorem State.setMar_report (v : Nat) : (s.setMar v).report = s.report := rfl

@[simp] theorem State.setMdr_pc (v : Word) : (s.setMdr v).pc = s.pc := rfl
@[simp] theorem State.setMdr_acc (v : Word) : (s.setMdr v).acc = s.acc := rfl
@[simp] theorem State.setMdr_cir (v : Word) : (s.setMdr v).cir = s.cir := rfl
@[simp] theorem State.setMdr_mar (v : Word) : (s.setMdr v).mar = s.mar := rfl
@[simp] theorem State.setMdr_mdr (v : Word) : (s.setMdr v).mdr = v := rfl
@[simp] theorem State.setMdr_mem (v : Word) : (s.setMdr v).mem = s.mem := rfl
@[simp] theorem State.setMdr_answers (v : Word) : (s.setMdr v).answers = s.answers := rfl
@[simp] theorem State.setMdr_outputs (v : Word) : (s.setMdr v).outputs = s.outputs := rfl
@[simp] theorem State.setMdr_report (v : Word) : (s.setMdr v).report = s.report := rfl

@[simp] theorem State.setMem_pc (v : Memory) : (s.setMem v).pc = s.pc := rfl
@[simp] theorem State.setMem_acc (v : Memory) : (s.setMem v).acc = s.acc := rfl
@[simp] theorem State.setMem_cir (v : Memory) : (s.setMem v).cir = s.cir := rfl
@[simp] theorem State.setMem_mar (v : Memory) : (s.setMem v).mar = s.mar := rfl
@[simp] theorem State.setMem_mdr (v : Memory) : (s.setMem v).mdr = s.mdr := rfl
@[simp] theorem State.setMem_mem (v : Memory) : (s.setMem v).mem = v := rfl
@[simp] theorem State.setMem_answers (v : Memory) : (s.setMem v).answers = s.answers := rfl
@[simp] theorem State.setMem_outputs (v : Memory) : (s.setMem v).outputs = s.outputs := rfl
@[simp] theorem State.setMem_report (v : Memory) : (s.setMem v).report = s.report := rfl

@[simp] theorem State.setAnswers_pc (v : List (Option Word)) : (s.setAnswers v).pc = s.pc := rfl
@[simp] theorem State.setAnswers_acc (v : List (Option Word)) : (s.setAnswers v).acc = s.acc := rfl
@[simp] theorem State.setAnswers_cir (v : List (Option Word)) : (s.setAnswers v).cir = s.cir := rfl
@[simp] theorem State.setAnswers_mar (v : List (Option Word)) : (s.setAnswers v).mar = s.mar := rfl
@[simp] theorem State.setAnswers_mdr (v : List (Option Word)) : (s.setAnswers v).mdr = s.mdr := rfl
@[simp] theorem State.setAnswers_mem (v : List (Option Word)) : (s.setAnswers v).mem = s.mem := rfl
@[simp] theorem State.setAnswers_answers (v : List (Option Word)) : (s.setAnswers v).answers = v := rfl
@[simp] theorem State.setAnswers_outputs (v : List (Option Word)) : (s.setAnswers v).outputs = s.outputs := rfl
@[simp] theorem State.setAnswers_report (v : List (Option Word)) : (s.setAnswers v).report = s.report := rfl

@[simp] theorem State.setOutputs_pc (v : List OutputRecord) : (s.setOutputs v).pc = s.pc := rfl
@[simp] theorem State.setOutputs_acc (v : List OutputRecord) : (s.setOutputs v).acc = s.acc := rfl
@[simp] theorem State.setOutputs_cir (v : List OutputRecord) : (s.setOutputs v).cir = s.cir := rfl
@[simp] theorem State.setOutputs_mar (v : List OutputRecord) : (s.setOutputs v).mar = s.mar := rfl
@[simp] theorem State.setOutputs_mdr (v : List OutputRecord) : (s.setOutputs v).mdr = s.mdr := rfl
@[simp] theorem State.setOutputs_mem (v : List OutputRecord) : (s.setOutputs v).mem = s.mem := rfl
@[simp] theorem State.setOutputs_answers (v : List OutputRecord) : (s.setOutputs v).answers = s.answers := rfl
@[simp] theorem State.setOutputs_outputs (v : List OutputRecord) : (s.setOutputs v).outputs = v := rfl
@[simp] theorem State.setOutputs_report (v : List OutputRecord) : (s.setOutputs v).report = s.report := rfl

@[simp] theorem State.setReport_pc (v : StepReport) : (s.setReport v).pc = s.pc := rfl
@[simp] theorem State.setReport_acc (v : StepReport) : (s.setReport v).acc = s.acc := rfl
@[simp] theorem State.setReport_cir (v : StepReport) : (s.setReport v).cir = s.cir := rfl
@[simp] theorem State.setReport_mar (v : StepReport) : (s.setReport v).mar = s.mar := rfl
@[simp] theorem State.setReport_mdr (v : StepReport) : (s.setReport v).mdr = s.mdr := rfl
@[simp] theorem State.setReport_mem (v : StepReport) : (s.setReport v).mem = s.mem := rfl
@[simp] theorem State.setReport_answers (v : StepReport) : (s.setReport v).answers = s.answers := rfl
@[simp] theorem State.setReport_outputs (v : StepReport) : (s.setReport v).outputs = s.outputs := rfl
@[simp] theorem State.setReport_report (v : StepReport) : (s.setReport v).report = v := rfl

@[simp] theorem State.advancePc_pc : s.advancePc.pc = s.pc + 1 := rfl
@[simp] theorem State.advancePc_acc : s.advancePc.acc = s.acc := rfl
@[simp] theorem State.advancePc_cir : s.advancePc.cir = s.cir := rfl
@[simp] theorem State.advancePc_mar : s.advancePc.mar = s.mar := rfl
@[simp] theorem State.advancePc_mdr : s.advancePc.mdr = s.mdr := rfl
@[simp] theorem State.advancePc_mem : s.advancePc.mem = s.mem := rfl
@[simp] theorem State.advancePc_answers : s.advancePc.answers = s.answers := rfl
@[simp] theorem State.advancePc_outputs : s.advancePc.outputs = s.outputs := rfl
@[simp] theorem State.advancePc_report : s.advancePc.report = s.report := rfl

@[simp] theorem complete_pc : (complete s).pc = s.pc := rfl
@[simp] theorem complete_acc : (complete s).acc = s.acc := rfl
@[simp] theorem complete_cir : (complete s).cir = s.cir := rfl
@[simp] theorem complete_mar : (complete s).mar = s.mar := rfl
@[simp] theorem complete_mdr : (complete s).mdr = s.mdr := rfl
@[simp] theorem complete_mem : (complete s).mem = s.mem := rfl
@[simp] theorem complete_answers : (complete s).answers = s.answers := rfl
@[simp] theorem complete_outputs : (complete s).outputs = s.outputs := rfl
@[simp] theorem pauseNeedInput_pc : (pauseNeedInput s).pc = s.pc := rfl
@[simp] theorem pauseNeedInput_acc : (pauseNeedInput s).acc = s.acc := rfl
@[simp] theorem pauseNeedInput_cir : (pauseNeedInput s).cir = s.cir := rfl
@[simp] theorem pauseNeedInput_mar : (pauseNeedInput s).mar = s.mar := rfl
@[simp] theorem pauseNeedInput_mdr : (pauseNeedInput s).mdr = s.mdr := rfl
@[simp] theorem pauseNeedInput_mem : (pauseNeedInput s).mem = s.mem := rfl
@[simp] theorem pauseNeedInput_answers : (pauseNeedInput s).answers = s.answers := rfl
@[simp] theorem pauseNeedInput_outputs : (pauseNeedInput s).outputs = s.outputs := rfl
@[simp] theorem complete_report : (complete s).report = okReport := rfl
@[simp] theorem pauseNeedInput_result : (pauseNeedInput s).report.result = some .needInput := rfl
@[simp] theorem pauseNeedInput_inTake : (pauseNeedInput s).report.inTake = false := rfl

@[simp] theorem errorState_pc (e : ExecError) : (errorState e s).pc = s.pc := rfl
@[simp] theorem errorState_acc (e : ExecError) : (errorState e s).acc = s.acc := rfl
@[simp] theorem errorState_cir (e : ExecError) : (errorState e s).cir = s.cir := rfl
@[simp] theorem errorState_mar (e : ExecError) : (errorState e s).mar = s.mar := rfl
@[simp] theorem errorState_mdr (e : ExecError) : (errorState e s).mdr = s.mdr := rfl
@[simp] theorem errorState_mem (e : ExecError) : (errorState e s).mem = s.mem := rfl
@[simp] theorem errorState_answers (e : ExecError) : (errorState e s).answers = s.answers := rfl
@[simp] theorem errorState_outputs (e : ExecError) : (errorState e s).outputs = s.outputs := rfl

@[simp] theorem emitOutput_pc (r : OutputRecord) : (emitOutput s r).pc = s.pc := rfl
@[simp] theorem emitOutput_acc (r : OutputRecord) : (emitOutput s r).acc = s.acc := rfl
@[simp] theorem emitOutput_cir (r : OutputRecord) : (emitOutput s r).cir = s.cir := rfl
@[simp] theorem emitOutput_mar (r : OutputRecord) : (emitOutput s r).mar = s.mar := rfl
@[simp] theorem emitOutput_mdr (r : OutputRecord) : (emitOutput s r).mdr = s.mdr := rfl
@[simp] theorem emitOutput_mem (r : OutputRecord) : (emitOutput s r).mem = s.mem := rfl
@[simp] theorem emitOutput_answers (r : OutputRecord) : (emitOutput s r).answers = s.answers := rfl
@[simp] theorem emitOutput_outputs (r : OutputRecord) : (emitOutput s r).outputs = s.outputs ++ [r] := rfl
@[simp] theorem emitOutput_report (r : OutputRecord) : (emitOutput s r).report = s.report := rfl

end Sys2Proof.Machine
end

