-- ==== Sys2Proof/Laws/Memory.lean ====
section
/-! SUPPORT. The laws of the mailboxes: read after write, the canonical form and the word range are kept by
every memory operation, and two canonical lists that read alike are equal. -/

namespace Sys2Proof.Machine

@[simp] theorem Memory.read_nil (a : Nat) : Memory.read [] a = Config.unlistedWord := rfl

theorem Memory.read_cons (k : Nat) (v : Word) (m : Memory) (a : Nat) :
    Memory.read ((k, v) :: m) a = if k = a then v else m.read a := rfl

theorem Memory.wfFrom_cons (lo k : Nat) (v : Word) (m : Memory) :
    Memory.wfFrom lo ((k, v) :: m) = true ↔
      (lo ≤ k ∧ k < Config.memSize ∧ v ≠ Config.unlistedWord) ∧ Memory.wfFrom (k + 1) m = true := by
  simp [Memory.wfFrom]

/-- A list canonical from a higher address is canonical from a lower one. -/
theorem Memory.wfFrom_mono {lo lo' : Nat} (h : lo' ≤ lo) {m : Memory}
    (hm : Memory.wfFrom lo m = true) : Memory.wfFrom lo' m = true := by
  cases m with
  | nil => rfl
  | cons c m =>
    obtain ⟨k, v⟩ := c
    rw [Memory.wfFrom_cons] at hm ⊢
    exact ⟨⟨h.trans hm.1.1, hm.1.2⟩, hm.2⟩

/-- Nothing below the start of a canonical list is listed. -/
theorem Memory.read_below {lo a : Nat} {m : Memory} (hm : Memory.wfFrom lo m = true) (ha : a < lo) :
    m.read a = Config.unlistedWord := by
  induction m generalizing lo with
  | nil => rfl
  | cons c m ih =>
    obtain ⟨k, v⟩ := c
    rw [Memory.wfFrom_cons] at hm
    rw [Memory.read_cons, if_neg (by omega)]
    exact ih hm.2 (by omega)

/-- Nothing that names no mailbox is listed. -/
theorem Memory.read_above {lo a : Nat} {m : Memory} (hm : Memory.wfFrom lo m = true)
    (ha : Config.memSize ≤ a) : m.read a = Config.unlistedWord := by
  induction m generalizing lo with
  | nil => rfl
  | cons c m ih =>
    obtain ⟨k, v⟩ := c
    rw [Memory.wfFrom_cons] at hm
    rw [Memory.read_cons, if_neg (by omega)]
    exact ih hm.2

/-- Putting `(a, v)` before a list of higher addresses: canonical from `a` on. -/
theorem Memory.wfFrom_put {lo a : Nat} {m : Memory} (v : Word) (hlo : lo ≤ a)
    (ha : a < Config.memSize) (hm : Memory.wfFrom (a + 1) m = true) :
    Memory.wfFrom lo (Memory.put a v m) = true := by
  unfold Memory.put
  split
  · exact Memory.wfFrom_mono (by omega) hm
  · rw [Memory.wfFrom_cons]
    exact ⟨⟨hlo, ha, ‹_›⟩, hm⟩

/-- Reading what was put before a list of higher addresses. -/
theorem Memory.read_put {a : Nat} {m : Memory} (v : Word) (hm : Memory.wfFrom (a + 1) m = true) (b : Nat) :
    (Memory.put a v m).read b = if a = b then v else m.read b := by
  unfold Memory.put
  split
  · rename_i hv
    split
    · subst_vars
      exact Memory.read_below hm (Nat.lt_succ_self _)
    · rfl
  · rfl

/-- A write keeps the canonical form. -/
theorem Memory.wfFrom_write {lo a : Nat} {m : Memory} (v : Word) (hm : Memory.wfFrom lo m = true)
    (hlo : lo ≤ a) (ha : a < Config.memSize) : Memory.wfFrom lo (m.write a v) = true := by
  induction m generalizing lo with
  | nil => exact Memory.wfFrom_put v hlo ha rfl
  | cons c m ih =>
    obtain ⟨k, w⟩ := c
    have h := (Memory.wfFrom_cons lo k w m).1 hm
    unfold Memory.write
    split
    · exact Memory.wfFrom_put v hlo ha ((Memory.wfFrom_cons _ _ _ _).2 ⟨⟨by omega, h.1.2⟩, h.2⟩)
    · split
      · subst_vars
        exact Memory.wfFrom_put v hlo ha h.2
      · exact (Memory.wfFrom_cons _ _ _ _).2 ⟨h.1, ih h.2 (by omega)⟩

/-- A read after a write: the written word at the written mailbox, the old word elsewhere. -/
theorem Memory.read_write {lo a : Nat} {m : Memory} (v : Word) (hm : Memory.wfFrom lo m = true) (b : Nat) :
    (m.write a v).read b = if a = b then v else m.read b := by
  induction m generalizing lo with
  | nil => exact Memory.read_put v rfl b
  | cons c m ih =>
    obtain ⟨k, w⟩ := c
    have h := (Memory.wfFrom_cons lo k w m).1 hm
    unfold Memory.write
    split
    · exact Memory.read_put v ((Memory.wfFrom_cons _ _ _ _).2 ⟨⟨by omega, h.1.2⟩, h.2⟩) b
    · split
      · subst_vars
        rw [Memory.read_put v h.2, Memory.read_cons]
        split <;> simp_all
      · rw [Memory.read_cons, Memory.read_cons, ih h.2]
        split
        · rw [if_neg (by omega)]
        · rfl

theorem Memory.wordsOk_put {a : Nat} {v : Word} {m : Memory} (hv : Config.InWord v)
    (hm : m.WordsOk) : (Memory.put a v m).WordsOk := by
  unfold Memory.put
  split
  · exact hm
  · intro c hc
    rcases List.mem_cons.1 hc with rfl | hc
    · exact hv
    · exact hm c hc

/-- A write of a legal word keeps every mailbox at a legal word. -/
theorem Memory.wordsOk_write {a : Nat} {v : Word} {m : Memory} (hv : Config.InWord v)
    (hm : m.WordsOk) : (m.write a v).WordsOk := by
  induction m with
  | nil => exact Memory.wordsOk_put hv hm
  | cons c m ih =>
    obtain ⟨k, w⟩ := c
    have hw : Config.InWord w := hm (k, w) List.mem_cons_self
    have hm' : Memory.WordsOk m := fun c hc => hm c (List.mem_cons_of_mem _ hc)
    unfold Memory.write
    split
    · exact Memory.wordsOk_put hv hm
    · split
      · exact Memory.wordsOk_put hv hm'
      · intro c hc
        rcases List.mem_cons.1 hc with rfl | hc
        · exact hw
        · exact ih hm' c hc

theorem Config.inWord_unlisted : Config.InWord Config.unlistedWord := by decide

/-- Every mailbox of a list of legal words reads as a legal word. -/
theorem Memory.read_inWord {m : Memory} (hm : m.WordsOk) (a : Nat) : Config.InWord (m.read a) := by
  induction m with
  | nil => exact Config.inWord_unlisted
  | cons c m ih =>
    obtain ⟨k, v⟩ := c
    rw [Memory.read_cons]
    split
    · exact hm (k, v) List.mem_cons_self
    · exact ih fun c hc => hm c (List.mem_cons_of_mem _ hc)

/-- A canonical list is determined by what its mailboxes read as. -/
theorem Memory.ext_of_wfFrom {lo : Nat} {m n : Memory} (hm : Memory.wfFrom lo m = true)
    (hn : Memory.wfFrom lo n = true) (h : ∀ a, m.read a = n.read a) : m = n := by
  induction m generalizing lo n with
  | nil =>
    cases n with
    | nil => rfl
    | cons c n =>
      obtain ⟨k, v⟩ := c
      have hc := (Memory.wfFrom_cons _ _ _ _).1 hn
      have := h k
      simp [Memory.read_cons] at this
      exact absurd this.symm hc.1.2.2
  | cons c m ih =>
    obtain ⟨k, v⟩ := c
    have hc := (Memory.wfFrom_cons _ _ _ _).1 hm
    have hk := h k
    rw [Memory.read_cons, if_pos rfl] at hk
    cases n with
    | nil => exact absurd hk hc.1.2.2
    | cons d n =>
      obtain ⟨j, w⟩ := d
      have hd := (Memory.wfFrom_cons _ _ _ _).1 hn
      have hj := h j
      rw [Memory.read_cons, Memory.read_cons, if_pos rfl] at hj
      rw [Memory.read_cons] at hk
      have hkj : k = j := by
        rcases Nat.lt_trichotomy k j with hlt | heq | hgt
        · rw [if_neg (by omega), Memory.read_below hd.2 (by omega)] at hk
          exact absurd hk hc.1.2.2
        · exact heq
        · rw [if_neg (by omega), Memory.read_below hc.2 (by omega)] at hj
          exact absurd hj.symm hd.1.2.2
      subst hkj
      rw [if_pos rfl] at hk
      subst hk
      have : m = n := by
        refine ih hc.2 hd.2 fun a => ?_
        have ha := h a
        rw [Memory.read_cons, Memory.read_cons] at ha
        by_cases hka : k = a
        · subst hka
          rw [Memory.read_below hc.2 (by omega), Memory.read_below hd.2 (by omega)]
        · rwa [if_neg hka, if_neg hka] at ha
      rw [this]

/-- The layout of an image is canonical. -/
theorem Memory.wfFrom_ofImageFrom (k : Nat) (ws : List Word) (h : k + ws.length ≤ Config.memSize) :
    Memory.wfFrom k (Memory.ofImageFrom k ws) = true := by
  induction ws generalizing k with
  | nil => rfl
  | cons w ws ih =>
    rw [List.length_cons] at h
    exact Memory.wfFrom_put w (Nat.le_refl k) (by omega) (ih (k + 1) (by omega))

/-- Mailbox `k + i` of an image laid out from `k` reads as its word `i`, and as zero beyond it (R53). -/
theorem Memory.read_ofImageFrom (k i : Nat) (ws : List Word) (h : k + ws.length ≤ Config.memSize) :
    (Memory.ofImageFrom k ws).read (k + i) = ws.getD i Config.unlistedWord := by
  induction ws generalizing k i with
  | nil => simp [Memory.ofImageFrom]
  | cons w ws ih =>
    rw [List.length_cons] at h
    rw [Memory.ofImageFrom, Memory.read_put w (Memory.wfFrom_ofImageFrom _ _ (by omega))]
    cases i with
    | zero => simp
    | succ i =>
      rw [if_neg (by omega), show k + (i + 1) = k + 1 + i by omega, ih (k + 1) i (by omega)]
      simp

/-- The layout of an image of legal words holds legal words. -/
theorem Memory.wordsOk_ofImageFrom (k : Nat) (ws : List Word) (h : ∀ w ∈ ws, Config.InWord w) :
    (Memory.ofImageFrom k ws).WordsOk := by
  induction ws generalizing k with
  | nil => intro c hc; cases hc
  | cons w ws ih =>
    exact Memory.wordsOk_put (h w List.mem_cons_self)
      (ih (k + 1) fun v hv => h v (List.mem_cons_of_mem _ hv))

/-- Saving the mailboxes and laying the image out again gives the same mailboxes (R34). -/
theorem Memory.ofImage_toImage {m : Memory} (hm : m.wf = true) : Memory.ofImage m.toImage = m := by
  have hlen : m.toImage.length = Config.memSize := by simp [Memory.toImage]
  have hwf : Memory.wfFrom 0 (Memory.ofImage m.toImage) = true :=
    Memory.wfFrom_ofImageFrom 0 _ (by omega)
  refine Memory.ext_of_wfFrom hwf hm fun a => ?_
  by_cases ha : a < Config.memSize
  · have := Memory.read_ofImageFrom 0 a m.toImage (by omega)
    rw [Nat.zero_add] at this
    rw [Memory.ofImage, this]
    simp [Memory.toImage, ha]
  · rw [Memory.read_above hwf (by omega), Memory.read_above hm (by omega)]

/-! ## The access primitives -/

theorem decodeAddress_of_lt {a : Nat} (h : a < Config.memSize) : decodeAddress a = some a := if_pos h

theorem decodeAddress_of_ge {a : Nat} (h : Config.memSize ≤ a) : decodeAddress a = none :=
  if_neg (by omega)

theorem memRead_of_lt {s : State} {a : Nat} (h : a < Config.memSize) :
    memRead s a = some (s.mem.read a) := by rw [memRead, decodeAddress_of_lt h]; rfl

theorem memRead_of_ge {s : State} {a : Nat} (h : Config.memSize ≤ a) : memRead s a = none := by
  rw [memRead, decodeAddress_of_ge h]; rfl

/-- A mailbox is read by its address and the list of mailboxes alone. -/
theorem memRead_congr {s t : State} (h : s.mem = t.mem) (a : Nat) : memRead s a = memRead t a := by
  unfold memRead; rw [h]

theorem memWrite_of_lt {s : State} {a : Nat} (v : Word) (h : a < Config.memSize) :
    memWrite s a v = some (s.setMem (s.mem.write a v)) := by rw [memWrite, decodeAddress_of_lt h]; rfl

theorem memWrite_of_ge {s : State} {a : Nat} (v : Word) (h : Config.memSize ≤ a) :
    memWrite s a v = none := by rw [memWrite, decodeAddress_of_ge h]; rfl

/-- Reading through the decoder after a write to an existing mailbox: the written word there, the old word at
every other address. -/
theorem memRead_of_write {s t : State} {a : Nat} {v : Word} (hm : s.mem.wf = true)
    (ht : t.mem = s.mem.write a v) (b : Nat) :
    memRead t b = if b = a ∧ a < Config.memSize then some v else memRead s b := by
  by_cases hb : b < Config.memSize
  · rw [memRead_of_lt hb, memRead_of_lt hb, ht, Memory.read_write v hm]
    by_cases hab : a = b
    · subst hab; simp [hb]
    · rw [if_neg hab, if_neg (by omega)]
  · rw [memRead_of_ge (by omega), memRead_of_ge (by omega), if_neg (by omega)]

/-- The canonical form is kept by a write to a mailbox and held by every loaded image and at reset: these are
all the ways mailboxes come about. -/
theorem Memory.wf_write {m : Memory} {a : Nat} (v : Word) (hm : m.wf = true) (ha : a < Config.memSize) :
    (m.write a v).wf = true := Memory.wfFrom_write v hm (Nat.zero_le a) ha

theorem Memory.wf_ofImage {ws : List Word} (h : ws.length ≤ Config.memSize) :
    (Memory.ofImage ws).wf = true := Memory.wfFrom_ofImageFrom 0 ws (by omega)

theorem Memory.wf_reset : State.reset.mem.wf = true := rfl

end Sys2Proof.Machine
end

