-- ==== Sys2Proof/Laws/Ops.lean ====
section
/-! SUPPORT. One equation per shared operation and per meaning, which says all it can do; proofs cite these
and do not unfold the operation. -/

namespace Sys2Proof.Machine

/-! ## The overflow law (R140, spec decision D1) -/

theorem wrap_inWord (s : Word) : Config.InWord (wrap s) := by
  simp only [Word, Config.InWord, Config.wordMin, Config.wordMax, wrap]; omega

theorem wrap_of_inWord {s : Word} (h : Config.InWord s) : wrap s = s := by
  simp only [Word, Config.InWord, Config.wordMin, Config.wordMax] at *
  simp only [wrap]; omega

/-! ## Operands -/

theorem loadOperand_of_lt {a : Nat} (s : State) (h : a < Config.memSize) :
    loadOperand a s = some ((s.setMar a).setMdr (s.mem.read a)) := by
  simp only [loadOperand, latchOperand, effectiveAddress, State.setMar_mar]
  rw [memRead_of_lt h]; rfl

theorem loadOperand_of_ge {a : Nat} (s : State) (h : Config.memSize ≤ a) : loadOperand a s = none := by
  simp only [loadOperand, latchOperand, effectiveAddress, State.setMar_mar]
  rw [memRead_of_ge h]; rfl

theorem storeOperand_of_lt {a : Nat} (s : State) (h : a < Config.memSize) :
    storeOperand a s = some (((s.setMar a).setMdr s.acc).setMem (s.mem.write a s.acc)) := by
  simp only [storeOperand, latchOperand, effectiveAddress, State.setMdr_mar, State.setMar_mar,
    State.setMdr_mdr]
  rw [memWrite_of_lt _ h]; rfl

theorem storeOperand_of_ge {a : Nat} (s : State) (h : Config.memSize ≤ a) : storeOperand a s = none := by
  simp only [storeOperand, latchOperand, effectiveAddress, State.setMdr_mar, State.setMar_mar,
    State.setMdr_mdr]
  rw [memWrite_of_ge _ h]

/-! ## The meanings -/

/-- Every answer of ADD and SUB's shared execute phase. -/
theorem accumulate_eq (law : Word → Word) (f : Word → Word → Word) (a : Nat) (s : State) :
    accumulate law f a s =
      if a < Config.memSize then
        .next { s with mar := a, mdr := s.mem.read a, acc := law (f s.acc (s.mem.read a)),
                       pc := s.pc + 1, report := okReport }
      else .fault (.noMailbox a) := by
  unfold accumulate
  split_ifs with h
  · rw [loadOperand_of_lt s h]; rfl
  · rw [loadOperand_of_ge s (by omega)]

theorem execAdd_eq (a : Nat) (s : State) :
    execAdd a s =
      if a < Config.memSize then
        .next { s with mar := a, mdr := s.mem.read a, acc := wrap (s.acc + s.mem.read a),
                       pc := s.pc + 1, report := okReport }
      else .fault (.noMailbox a) := accumulate_eq _ _ a s

theorem execSub_eq (a : Nat) (s : State) :
    execSub a s =
      if a < Config.memSize then
        .next { s with mar := a, mdr := s.mem.read a, acc := wrap (s.acc - s.mem.read a),
                       pc := s.pc + 1, report := okReport }
      else .fault (.noMailbox a) := accumulate_eq _ _ a s

theorem execSta_eq (a : Nat) (s : State) :
    execSta a s =
      if a < Config.memSize then
        .next { s with mar := a, mdr := s.acc, mem := s.mem.write a s.acc, pc := s.pc + 1,
                       report := okReport }
      else .fault (.noMailbox a) := by
  unfold execSta
  split_ifs with h
  · rw [storeOperand_of_lt s h]; rfl
  · rw [storeOperand_of_ge s (by omega)]

theorem execLda_eq (a : Nat) (s : State) :
    execLda a s =
      if a < Config.memSize then
        .next { s with mar := a, mdr := s.mem.read a, acc := s.mem.read a, pc := s.pc + 1,
                       report := okReport }
      else .fault (.noMailbox a) := by
  unfold execLda
  split_ifs with h
  · rw [loadOperand_of_lt s h]; rfl
  · rw [loadOperand_of_ge s (by omega)]

/-- The state a branch leaves. -/
theorem branch_eq (taken : Bool) (a : Nat) (s : State) :
    branch taken a s =
      { s with mar := a, pc := if taken then a else s.pc + 1, report := okReport } := by
  cases taken <;> rfl

/-- INP with nothing available: no answer left, or the answer "not available". -/
theorem execInp_none {s : State} (h : s.answers.head?.join = none) :
    execInp s = .next (pauseNeedInput (s.setAnswers s.answers.tail)) := by
  unfold execInp askInput
  rcases hs : s.answers with _ | ⟨_ | v, rest⟩
  · rw [show s.setAnswers [].tail = s by rw [List.tail_nil, ← hs]; rfl]
  · rfl
  · simp [hs] at h

/-- INP with a value offered. -/
theorem execInp_some {s : State} {v : Word} {rest : List (Option Word)}
    (h : s.answers = some v :: rest) :
    execInp s =
      if Config.InWord v then
        .next { s with acc := v, pc := s.pc + 1, answers := rest,
                       report := { result := some .ok, inTake := true, output := none } }
      else .refused (.inputOutOfRange v) := by
  unfold execInp askInput
  rw [h]
  rfl

/-- The answer to `In()` is one of two: nothing available, or a value. -/
theorem answers_cases (s : State) :
    s.answers.head?.join = none ∨ ∃ v rest, s.answers = some v :: rest := by
  rcases h : s.answers with _ | ⟨_ | v, rest⟩
  · exact .inl rfl
  · exact .inl rfl
  · exact .inr ⟨v, rest, rfl⟩

/-- Every next state of INP: the pause, or the value taken. -/
theorem execInp_next {s t : State} (h : execInp s = .next t) :
    (s.answers.head?.join = none ∧ t = pauseNeedInput (s.setAnswers s.answers.tail)) ∨
    ∃ v rest, s.answers = some v :: rest ∧ Config.InWord v ∧
      t = { s with acc := v, pc := s.pc + 1, answers := rest,
                   report := { result := some .ok, inTake := true, output := none } } := by
  rcases answers_cases s with hn | ⟨v, rest, hv⟩
  · rw [execInp_none hn] at h
    cases h
    exact .inl ⟨hn, rfl⟩
  · rw [execInp_some hv] at h
    split at h
    · cases h
      exact .inr ⟨v, rest, hv, ‹_›, rfl⟩
    · cases h

/-- An instruction whose operand, if it has one, names a mailbox never faults (R52, R193). -/
theorem exec_ne_fault {i : Instr} {s : State} {f : Fault}
    (hi : ∀ a, i.operand? = some a → a < Config.memSize) : exec i s ≠ .fault f := by
  intro h
  cases i with
  | hlt => cases h
  | add a => rw [exec, execAdd_eq, if_pos (hi a rfl)] at h; cases h
  | sub a => rw [exec, execSub_eq, if_pos (hi a rfl)] at h; cases h
  | sta a => rw [exec, execSta_eq, if_pos (hi a rfl)] at h; cases h
  | lda a => rw [exec, execLda_eq, if_pos (hi a rfl)] at h; cases h
  | bra a => cases h
  | brz a => cases h
  | brp a => cases h
  | inp =>
    rw [exec] at h
    rcases answers_cases s with hn | ⟨v, rest, hv⟩
    · rw [execInp_none hn] at h; cases h
    · rw [execInp_some hv] at h; split at h <;> cases h
  | out => cases h
  | otc => cases h

/-- The state OUT and OTC leave. -/
theorem outputAcc_eq (kind : OutputKind) (s : State) :
    outputAcc kind s =
      { s with pc := s.pc + 1, outputs := s.outputs ++ [{ value := s.acc, kind := kind }],
               report := { result := some .ok, inTake := false,
                           output := some { value := s.acc, kind := kind } } } := rfl

end Sys2Proof.Machine
end

