-- ==== Sys2Proof/Laws/PerInstr.lean ====
section
/-! SUPPORT. A statement for all instructions, one lemma per constructor: the word of a well-formed
instruction is one the unit can hold and fetch as an instruction, 0 to 999 (R80). -/

namespace Sys2Proof.Laws.CodeRange

/-- Under every legal configuration the word of a well-formed instruction is from 0 to 999 (R80). -/
def Statement (i : Instr) : Prop :=
  ∀ p : Config.OpenParams, p.Legal → i.WellFormed p = true → 0 ≤ encode p i ∧ encode p i ≤ 999

/-- The format A half, for each opcode digit from 1 to 9. -/
theorem formatA_range {d : Word} (hd : 1 ≤ d ∧ d ≤ 9) {a : Nat} (ha : a < Config.memSize) :
    0 ≤ formatA d a ∧ formatA d a ≤ 999 := by
  simp only [Word, Config.memSize, formatA] at *; omega

theorem hlt : Statement .hlt := fun _ _ _ => by simp only [encode]; decide
theorem add (a : Nat) : Statement (.add a) := fun _ _ h => formatA_range (by decide) (of_decide_eq_true h)
theorem sub (a : Nat) : Statement (.sub a) := fun _ _ h => formatA_range (by decide) (of_decide_eq_true h)
theorem sta (a : Nat) : Statement (.sta a) := fun _ _ h => formatA_range (by decide) (of_decide_eq_true h)
theorem lda (a : Nat) : Statement (.lda a) := fun _ _ h => formatA_range (by decide) (of_decide_eq_true h)
theorem bra (a : Nat) : Statement (.bra a) := fun _ _ h => formatA_range (by decide) (of_decide_eq_true h)
theorem brz (a : Nat) : Statement (.brz a) := fun _ _ h => formatA_range (by decide) (of_decide_eq_true h)
theorem brp (a : Nat) : Statement (.brp a) := fun _ _ h => formatA_range (by decide) (of_decide_eq_true h)
theorem inp : Statement .inp := fun _ _ _ => by simp only [encode]; decide
theorem out : Statement .out := fun _ _ _ => by simp only [encode]; decide
theorem otc : Statement .otc := fun p hp _ => by
  obtain ⟨_, hc⟩ := hp
  simp only [Word, Config.LegalOtcCode] at *
  simp only [encode]; omega

end Sys2Proof.Laws.CodeRange
end

