-- ==== Sys2Proof/Laws/Step.lean ====
section
/-! SUPPORT. What a step can do, said once: the fetch and decode, then the inversions of `step`. -/

namespace Sys2Proof.Machine

/-- The fetch from a mailbox: CIR holds its word, which is then decoded (R123). -/
theorem fetchDecode_of_lt (p : Config.OpenParams) {s : State} (h : s.pc < Config.memSize) :
    fetchDecode p s = decodeCir p (s.setCir (s.mem.read s.pc)) := by
  rw [fetchDecode, memRead_of_lt h]

/-- The fetch out of bounds: nothing is written (R122). -/
theorem fetchDecode_of_ge (p : Config.OpenParams) {s : State} (h : Config.memSize ≤ s.pc) :
    fetchDecode p s = .stopped (raise .pcOutOfBounds s) := by
  rw [fetchDecode, memRead_of_ge h]

theorem decodeCir_instr {p : Config.OpenParams} {s : State} {i : Instr}
    (h : decode p s.cir = .instr i) : decodeCir p s = .execute i s := by rw [decodeCir, h]

theorem decodeCir_invalid {p : Config.OpenParams} {s : State} {why : InvalidWord}
    (h : decode p s.cir = .invalid why) : decodeCir p s = .stopped (raise .badInstruction s) := by
  rw [decodeCir, h]

/-- Everything a step from a well-formed state can do (R121), under any parameters and any execute phase: the
two errors, or the decoded instruction. -/
theorem stepBy_cases (p : Config.OpenParams) (run : Instr → State → Host.Outcome State Fault Refusal)
    {s : State} (hs : s.WellFormed) :
    (Config.memSize ≤ s.pc ∧ stepBy p run s = .fault (raise .pcOutOfBounds s)) ∨
    (s.pc < Config.memSize ∧ ∃ why, decode p (s.mem.read s.pc) = .invalid why ∧
      stepBy p run s = .fault (raise .badInstruction (s.setCir (s.mem.read s.pc)))) ∨
    (s.pc < Config.memSize ∧ ∃ i, decode p (s.mem.read s.pc) = .instr i ∧
      stepBy p run s = run i (s.setCir (s.mem.read s.pc))) := by
  unfold stepBy
  rw [if_pos hs]
  by_cases h : s.pc < Config.memSize
  · rw [fetchDecode_of_lt _ h]
    cases hd : decode p (s.mem.read s.pc) with
    | instr i => exact .inr (.inr ⟨h, i, rfl, by rw [decodeCir_instr (i := i) hd]⟩)
    | invalid why => exact .inr (.inl ⟨h, why, rfl, by rw [decodeCir_invalid (why := why) hd]⟩)
  · exact .inl ⟨by omega, by rw [fetchDecode_of_ge _ (by omega)]⟩

theorem stepBy_of_not_wellFormed (p : Config.OpenParams)
    (run : Instr → State → Host.Outcome State Fault Refusal) {s : State} (hs : ¬ s.WellFormed) :
    stepBy p run s = .refused .illFormedState := if_neg hs

/-- `stepBy_cases` of the configured step. -/
theorem stepWith_cases (p : Config.OpenParams) {s : State} (hs : s.WellFormed) :
    (Config.memSize ≤ s.pc ∧ stepWith p s = .fault (raise .pcOutOfBounds s)) ∨
    (s.pc < Config.memSize ∧ ∃ why, decode p (s.mem.read s.pc) = .invalid why ∧
      stepWith p s = .fault (raise .badInstruction (s.setCir (s.mem.read s.pc)))) ∨
    (s.pc < Config.memSize ∧ ∃ i, decode p (s.mem.read s.pc) = .instr i ∧
      stepWith p s = execWith p i (s.setCir (s.mem.read s.pc))) := stepBy_cases p (execWith p) hs

theorem stepWith_of_not_wellFormed (p : Config.OpenParams) {s : State} (hs : ¬ s.WellFormed) :
    stepWith p s = .refused .illFormedState := stepBy_of_not_wellFormed p (execWith p) hs

/-- `stepBy_cases` of the unit's step. -/
theorem step_cases {s : State} (hs : s.WellFormed) :
    (Config.memSize ≤ s.pc ∧ step s = .fault (raise .pcOutOfBounds s)) ∨
    (s.pc < Config.memSize ∧ ∃ why, decode unitParams (s.mem.read s.pc) = .invalid why ∧
      step s = .fault (raise .badInstruction (s.setCir (s.mem.read s.pc)))) ∨
    (s.pc < Config.memSize ∧ ∃ i, decode unitParams (s.mem.read s.pc) = .instr i ∧
      step s = exec i (s.setCir (s.mem.read s.pc))) := stepBy_cases unitParams exec hs

theorem step_of_not_wellFormed {s : State} (h : ¬ s.WellFormed) : step s = .refused .illFormedState :=
  stepBy_of_not_wellFormed _ _ h

/-- A step that answers a next state ran the instruction at PC. -/
theorem step_next {s t : State} (h : step s = .next t) :
    s.WellFormed ∧ s.pc < Config.memSize ∧ ∃ i, decode unitParams (s.mem.read s.pc) = .instr i ∧
      exec i (s.setCir (s.mem.read s.pc)) = .next t := by
  by_cases hs : s.WellFormed
  · rcases step_cases hs with ⟨_, e⟩ | ⟨_, _, _, e⟩ | ⟨hpc, i, hd, e⟩
    · rw [e] at h; cases h
    · rw [e] at h; cases h
    · exact ⟨hs, hpc, i, hd, e ▸ h⟩
  · rw [step_of_not_wellFormed hs] at h; cases h

/-- A step that faults ended in one of the two errors of the spec (R127, R196). -/
theorem step_fault {s : State} {f : Fault} (h : step s = .fault f) :
    s.WellFormed ∧
      ((Config.memSize ≤ s.pc ∧ f = raise .pcOutOfBounds s) ∨
       (s.pc < Config.memSize ∧ ∃ why, decode unitParams (s.mem.read s.pc) = .invalid why ∧
         f = raise .badInstruction (s.setCir (s.mem.read s.pc)))) := by
  by_cases hs : s.WellFormed
  · refine ⟨hs, ?_⟩
    rcases step_cases hs with ⟨hp, e⟩ | ⟨hp, why, hw, e⟩ | ⟨_, i, hi, e⟩
    · rw [e] at h; cases h; exact .inl ⟨hp, rfl⟩
    · rw [e] at h; cases h; exact .inr ⟨hp, why, hw, rfl⟩
    · rw [e] at h; exact absurd h (exec_ne_fault fun a ha => operand_lt_of_decode hi ha)
  · rw [step_of_not_wellFormed hs] at h; cases h

/-- The fetch keeps a state well-formed: the fetched word is a legal word. -/
theorem wellFormed_fetched {s : State} (hs : s.WellFormed) (a : Nat) :
    (s.setCir (s.mem.read a)).WellFormed := by
  obtain ⟨h1, h2, _, h4, h5, h6, h7⟩ := hs
  exact ⟨h1, h2, Memory.read_inWord h7 a, h4, h5, h6, h7⟩

end Sys2Proof.Machine
end

