-- ==== Sys2Proof/Laws/Run.lean ====
section
/-! SUPPORT. Runs (R187), said once: the status at a state, the next state of a run, and how
an infinite run is shown. -/

namespace Sys2Proof.Machine

@[simp] theorem schedule_answers (s : State) (more : List (Option Word)) :
    (s.schedule more).answers = s.answers ++ more := rfl

@[simp] theorem schedule_nil (s : State) : s.schedule [] = s := by
  rw [State.schedule, List.append_nil]; rfl

/-- The answers of the capability are no part of the Machine State (R33). -/
@[simp] theorem schedule_wellFormed (s : State) (more : List (Option Word)) :
    (s.schedule more).WellFormed ↔ s.WellFormed := Iff.rfl

@[simp] theorem schedule_atHalt (s : State) (more : List (Option Word)) :
    AtHalt (s.schedule more) ↔ AtHalt s := Iff.rfl

theorem runStatus_of_atHalt {s : State} (hs : s.WellFormed) (h : AtHalt s) : runStatus s = .halted s := by
  rw [runStatus, if_neg (not_not.2 hs), if_pos h]

/-- Away from a halt the status is the outcome of the step. -/
theorem runStatus_of_not_atHalt {s : State} (hs : s.WellFormed) (h : ¬ AtHalt s) :
    runStatus s =
      match step s with
      | .next t => if t.report.result = some .needInput then .suspended t else .running t
      | .fault f => .failed f
      | .refused r => .noMeaning r :=
  (if_neg (not_not.2 hs)).trans ((if_neg h).trans (by cases step s <;> rfl))

/-- A step that completes away from a halt goes on from the state it leaves. -/
theorem runStatus_of_completed {s t : State} (hs : s.WellFormed) (hh : ¬ AtHalt s) (h : step s = .next t)
    (hr : t.report.result ≠ some .needInput) : runStatus s = .running t := by
  rw [runStatus_of_not_atHalt hs hh, h]
  exact if_neg hr

theorem runState_zero (feed : InputFeed) {s : State} (hs : s.WellFormed) :
    runState feed 0 s = some (s.schedule (feed 0)) := if_pos hs

theorem runState_succ (feed : InputFeed) (n : Nat) (s : State) :
    runState feed (n + 1) s = (runState feed n s).bind fun t =>
      (runStatus t).continues.map fun u => u.schedule (feed (n + 1)) := rfl

theorem runStatusAt_of_runState {feed : InputFeed} {n : Nat} {s t : State} (h : runState feed n s = some t) :
    runStatusAt feed n s = some (runStatus t) := by rw [runStatusAt, h, Option.map_some]

/-- A run that goes on has a next state, with what has arrived scheduled in it. -/
theorem runState_succ_of_running {feed : InputFeed} {n : Nat} {s t u : State}
    (h : runState feed n s = some t) (hr : runStatus t = .running u) :
    runState feed (n + 1) s = some (u.schedule (feed (n + 1))) := by
  rw [runState_succ, h, Option.bind_some, hr]; rfl

/-- Once a run has no state it has none later. -/
theorem runState_none {feed : InputFeed} {n m : Nat} {s : State} (hnm : n ≤ m)
    (h : runState feed n s = none) : runState feed m s = none := by
  induction m, hnm using Nat.le_induction with
  | base => exact h
  | succ m _ ih => rw [runState_succ, ih]; rfl

/-- An infinite run from a property of its states that every step carries on. -/
theorem runIsInfinite_of_invariant {feed : InputFeed} {s : State} (Inv : Nat → State → Prop)
    (hs : s.WellFormed) (h0 : Inv 0 (s.schedule (feed 0)))
    (hstep : ∀ n t, Inv n t → ∃ u, runStatus t = .running u ∧ Inv (n + 1) (u.schedule (feed (n + 1)))) :
    RunIsInfinite feed s := by
  have hrun : ∀ n, ∃ t, runState feed n s = some t ∧ Inv n t := by
    intro n
    induction n with
    | zero => exact ⟨_, runState_zero feed hs, h0⟩
    | succ n ih =>
      obtain ⟨t, ht, hi⟩ := ih
      obtain ⟨u, hu, hi'⟩ := hstep n t hi
      exact ⟨_, runState_succ_of_running ht hu, hi'⟩
  intro n
  obtain ⟨t, ht, hi⟩ := hrun n
  obtain ⟨u, hu, _⟩ := hstep n t hi
  exact ⟨u, by rw [runStatusAt_of_runState ht, hu]⟩

/-- A completed step that leaves the state as it was, away from a halt, is an infinite run (R188). -/
theorem runIsInfinite_of_step_self {s : State} (hs : s.WellFormed) (hh : ¬ AtHalt s)
    (h : step s = .next s) (hr : s.report.result ≠ some .needInput) : RunIsInfinite .silent s :=
  runIsInfinite_of_invariant (fun _ t => t = s) hs (schedule_nil s) fun _ t ht => by
    subst ht
    exact ⟨t, runStatus_of_completed hs hh h hr, schedule_nil t⟩

end Sys2Proof.Machine
end

