-- ==== Sys2Proof/Tests/Slice0.lean ====
section
/-! SUPPORT. Tests with results from spec/95_test_vectors.md (the vector is named at each), and for every
statement of Obligations.lean that has hypotheses a witness that meets them. -/

namespace Sys2Proof.Tests

open Sys2Proof.Machine

/-! ## Helpers -/

/-- The vectors' start state: PC, ACC and the mailboxes that matter; all else as after reset. -/
def start (pc : Nat) (acc : Word) (mem : Memory) : State :=
  { State.reset with pc := pc, acc := acc, mem := mem }

/-- A start state whose I/O capability will give these answers. -/
def startIo (pc : Nat) (acc : Word) (mem : Memory) (answers : List (Option Word)) : State :=
  { start pc acc mem with answers := answers }

/-- What `f` sees in the state one step leaves, where the step answers a next state. -/
def afterStep {α : Type} (s : State) (f : State → α) : Option α :=
  match step s with
  | .next t => some (f t)
  | .fault _ => none
  | .refused _ => none

/-- PC, ACC, CIR, MAR, MDR, in the vectors' order. -/
def regs (t : State) : Nat × Word × Word × Nat × Word := (t.pc, t.acc, t.cir, t.mar, t.mdr)

/-- What `f` sees in the state an error leaves, where the step ends in one. -/
def afterError {α : Type} (s : State) (f : State → α) : Option α :=
  match step s with
  | .next _ => none
  | .fault e => e.stateLeft.map f
  | .refused _ => none

/-- PC, ACC, CIR and the reported outcome. -/
def seen (t : State) : Nat × Word × Word × Option StepResult := (t.pc, t.acc, t.cir, t.report.result)

/-- The parameters of vector O4: no character output. -/
def noOtc : Config.OpenParams := { unitParams with hasOtc := false }

/-! ## Well-formedness refuses what has no word -/

theorem test_wellFormed_accepts_last_operand :
    (Instr.add 99).WellFormed unitParams = true ∧ (Instr.brp 99).WellFormed unitParams = true ∧
      Instr.otc.WellFormed unitParams = true := by decide

theorem test_wellFormed_refuses_operand_100 :
    (Instr.add 100).WellFormed unitParams = false ∧ (Instr.sub 100).WellFormed unitParams = false ∧
      (Instr.sta 100).WellFormed unitParams = false ∧ (Instr.lda 100).WellFormed unitParams = false ∧
      (Instr.bra 100).WellFormed unitParams = false ∧ (Instr.brz 100).WellFormed unitParams = false ∧
      (Instr.brp 100).WellFormed unitParams = false := by decide

theorem test_wellFormed_refuses_absent_otc : Instr.otc.WellFormed noOtc = false := by decide

/-- An ill-formed term stops with the model's own fault and reads no mailbox. -/
theorem test_exec_operand_100 : exec (.lda 100) State.reset = .fault (.noMailbox 100) := rfl

/-! ## Decode: vectors E1 to E35 -/

theorem test_decode_hlt : decode unitParams 0 = .instr .hlt := by decide
theorem test_decode_add : decode unitParams 105 = .instr (.add 5) ∧ decode unitParams 199 = .instr (.add 99) := by decide
theorem test_decode_sub : decode unitParams 200 = .instr (.sub 0) ∧ decode unitParams 299 = .instr (.sub 99) := by decide
theorem test_decode_sta : decode unitParams 300 = .instr (.sta 0) ∧ decode unitParams 399 = .instr (.sta 99) := by decide
theorem test_decode_lda : decode unitParams 500 = .instr (.lda 0) ∧ decode unitParams 599 = .instr (.lda 99) := by decide
theorem test_decode_bra : decode unitParams 600 = .instr (.bra 0) ∧ decode unitParams 699 = .instr (.bra 99) := by decide
theorem test_decode_brz : decode unitParams 700 = .instr (.brz 0) ∧ decode unitParams 799 = .instr (.brz 99) := by decide
theorem test_decode_brp : decode unitParams 800 = .instr (.brp 0) ∧ decode unitParams 899 = .instr (.brp 99) := by decide
theorem test_decode_inp : decode unitParams 901 = .instr .inp := by decide
theorem test_decode_out : decode unitParams 902 = .instr .out := by decide
theorem test_decode_otc : decode unitParams 922 = .instr .otc ∧ decode noOtc 922 = .invalid .nineHundred := by decide

theorem test_decode_invalid_low :
    decode unitParams (-1) = .invalid .negative ∧ decode unitParams (-999) = .invalid .negative ∧
      decode unitParams 1 = .invalid .zeroHundred ∧ decode unitParams 99 = .invalid .zeroHundred ∧
      decode unitParams 400 = .invalid .fourHundred ∧ decode unitParams 499 = .invalid .fourHundred := by
  decide

theorem test_decode_invalid_high :
    decode unitParams 900 = .invalid .nineHundred ∧ decode unitParams 903 = .invalid .nineHundred ∧
      decode unitParams 921 = .invalid .nineHundred ∧ decode unitParams 999 = .invalid .nineHundred ∧
      decode unitParams 1000 = .invalid .tooLarge ∧ decode unitParams 32767 = .invalid .tooLarge := by
  decide

/-- A container whose sign bit is set holds a negative word, which is no instruction (R90). -/
theorem test_decodeTableWord :
    decodeTableWord 16 105 = some (.add 5) ∧ decodeTableWord 16 65535 = none := by decide

/-! ## One step: at most two vectors an instruction -/

/-- H1. -/
theorem test_hlt :
    afterStep { start 5 7 [] with cir := 902, mar := 99, mdr := 3 } regs = some (5, 7, 0, 99, 3) := by
  decide

/-- A3. -/
theorem test_add_wraps_up :
    afterStep (start 10 999 [(10, 150), (50, 1)]) regs = some (11, -999, 150, 50, 1) := by decide
/-- A23: own address, at the last mailbox. -/
theorem test_add_last_address :
    afterStep (start 99 1 [(99, 199)]) regs = some (100, 200, 199, 99, 199) := by decide

/-- A16. -/
theorem test_sub_wraps_down :
    afterStep (start 10 (-999) [(10, 250), (50, 999)]) regs = some (11, 1, 250, 50, 999) := by decide
/-- A12. -/
theorem test_sub_negative :
    afterStep (start 10 3 [(10, 250), (50, 5)]) regs = some (11, -2, 250, 50, 5) := by decide

/-- M3: over its own address. -/
theorem test_sta_own_address :
    afterStep (start 7 902 [(7, 307)]) (fun t => (regs t, t.mem)) =
      some ((8, 902, 307, 7, 902), [(7, 902)]) := by decide
/-- M4: zero is stored, and the mailbox reads as HLT. -/
theorem test_sta_zero :
    afterStep (start 7 0 [(7, 308), (8, 150)]) (fun t => (t.pc, t.mem, decide (AtHalt t))) =
      some (8, [(7, 308)], true) := by decide

/-- M6. -/
theorem test_lda_negative :
    afterStep (start 0 55 [(0, 530), (30, -999)]) regs = some (1, -999, 530, 30, -999) := by decide
/-- M7: own word. -/
theorem test_lda_own_word :
    afterStep (start 12 0 [(12, 512)]) regs = some (13, 512, 512, 12, 512) := by decide

/-- B3. -/
theorem test_bra : afterStep (start 0 0 [(0, 699)]) regs = some (99, 0, 699, 99, 0) := by decide

/-- B4, B6. -/
theorem test_brz :
    afterStep (start 3 0 [(3, 700)]) regs = some (0, 0, 700, 0, 0) ∧
      afterStep (start 3 (-1) [(3, 700)]) regs = some (4, -1, 700, 0, 0) := by decide
/-- B7: untaken at the last mailbox. -/
theorem test_brz_last_address :
    afterStep (start 99 1 [(99, 750)]) regs = some (100, 1, 750, 50, 0) := by decide

/-- B10, B11. -/
theorem test_brp :
    afterStep (start 5 0 [(5, 808)]) regs = some (8, 0, 808, 8, 0) ∧
      afterStep (start 5 (-1) [(5, 808)]) regs = some (6, -1, 808, 8, 0) := by decide

/-- I1. -/
theorem test_inp_pauses :
    afterStep (startIo 0 8 [(0, 901)] [none, some 42]) (fun t => (regs t, t.report.result, t.answers)) =
      some ((0, 8, 901, 0, 0), some .needInput, [some 42]) := by decide
/-- I4. -/
theorem test_inp_takes :
    afterStep (startIo 0 8 [(0, 901)] [some (-999)]) (fun t => (regs t, t.report.inTake, t.answers)) =
      some ((1, -999, 901, 0, 0), true, []) := by decide

/-- O2. -/
theorem test_out :
    afterStep (start 4 (-12) [(4, 902)]) (fun t => (regs t, t.outputs)) =
      some ((5, -12, 902, 0, 0), [{ value := -12, kind := .numeric }]) := by decide

/-- O3. -/
theorem test_otc :
    afterStep (start 2 65 [(2, 922)]) (fun t => (regs t, t.outputs)) =
      some ((3, 65, 922, 0, 0), [{ value := 65, kind := .character }]) := by decide

/-- O4, its second half: without character output the word 922 fails and writes only CIR. -/
theorem test_otc_word_without_otc :
    (match stepWith noOtc (start 2 65 [(2, 922)]) with
      | .next _ => none
      | .fault e => e.stateLeft.map fun t => (seen t, t.outputs)
      | .refused _ => none) = some ((2, 65, 922, some .errBadInstruction), []) := by decide

/-! ## Errors, the host's moves, the toolchain -/

/-- X1, X2. -/
theorem test_pc_out_of_bounds :
    afterError { start 100 3 [] with cir := 902 } seen = some (100, 3, 902, some .errPcOutOfBounds) ∧
      afterError (start 127 0 []) seen = some (127, 0, 0, some .errPcOutOfBounds) := by decide

/-- X4, X5. -/
theorem test_bad_instruction :
    afterError (start 9 0 [(9, 450)]) seen = some (9, 0, 450, some .errBadInstruction) ∧
      afterError (start 9 0 [(9, -3)]) seen = some (9, 0, -3, some .errBadInstruction) := by decide

/-- I5. -/
theorem test_input_out_of_range :
    step (startIo 0 0 [(0, 901)] [some 1000]) = .refused (.inputOutOfRange 1000) := rfl

/-- The words of P1 loaded, zeros after them (R53). -/
theorem test_load_image :
    ((start 0 0 [(60, 1)]).loadImage [901, 399, 901, 199, 902, 0]).map (fun t => t.mem) =
      some [(0, 901), (1, 399), (2, 901), (3, 199), (4, 902)] := by decide

/-- Launched: the image loaded, the registers reset (R228). -/
theorem test_launch :
    ((start 7 5 [(60, 1)]).launch [902]).map (fun t => (t.pc, t.acc, t.mem)) = some (0, 0, [(0, 902)]) := by
  decide

/-- A state that is not well-formed begins no run, at halt or not (R42, R187). -/
theorem test_runStatus_ill_formed : runStatus (start 0 1000 []) = .noMeaning .illFormedState := rfl

/-- A supplied value comes after the answers already scheduled (log 7). -/
theorem test_supplyInput_last : ((startIo 0 0 [] [none]).supplyInput 3).answers = [none, some 3] := rfl

/-- Outputs then halt: the run of P1's last two words is over, with success, in its state number 1. -/
theorem test_run_succeeds :
    (runStatusAt .silent 0 (start 4 7 [(4, 902)])).isSome = true ∧
      (runState .silent 1 (start 4 7 [(4, 902)])).map (fun t => decide (AtHalt t)) = some true ∧
      runState .silent 2 (start 4 7 [(4, 902)]) = none := ⟨rfl, rfl, rfl⟩

/-- BRA to itself, once fetched. -/
def spin : State := { start 6 0 [(6, 606)] with cir := 606, mar := 6, report := okReport }

/-- "`BRA a` at `PC = a` also leaves the state unchanged and is an infinite run, not a halt" (R188). -/
theorem test_bra_to_itself_is_infinite : RunIsInfinite .silent spin :=
  runIsInfinite_of_step_self (by decide) (by decide) rfl (by decide)

/-- Before the INP of the loop `INP; BRA 0`, as its BRA leaves the state. -/
def loopTop : State :=
  { start 0 3 [(0, 901), (1, 600)] with cir := 600, report := okReport }

/-- The same loop before its BRA, the value 3 just taken. -/
def loopBottom : State :=
  { start 1 3 [(0, 901), (1, 600)] with
    cir := 901, report := { result := some .ok, inTake := true, output := none } }

/-- The value 3 becomes available before every second step, the INP of `loopTop`. -/
def threeForEach : InputFeed := fun n => if n % 2 = 0 then [some 3] else []

/-- `INP; BRA 0` with a value at each INP never halts, fails or pauses (R187). -/
theorem test_input_loop_is_infinite : RunIsInfinite threeForEach loopTop := by
  refine runIsInfinite_of_invariant
    (fun n t => t = if n % 2 = 0 then loopTop.schedule [some 3] else loopBottom) (by decide) rfl ?_
  rintro n _ rfl
  rcases Nat.mod_two_eq_zero_or_one n with h | h
  · have h' : (n + 1) % 2 = 1 := by omega
    refine ⟨loopBottom, ?_, ?_⟩
    · simp only [h, if_true]
      exact runStatus_of_completed (by decide) (by decide) rfl (by decide)
    · simp only [threeForEach, h', one_ne_zero, if_false]
      exact schedule_nil _
  · have h' : (n + 1) % 2 = 0 := by omega
    refine ⟨loopTop, ?_, ?_⟩
    · simp only [h, one_ne_zero, if_false]
      exact runStatus_of_completed (by decide) (by decide) rfl (by decide)
    · simp only [threeForEach, h', if_true]

/-- The first word placed where the first step after reset fetches. -/
theorem test_withFetchWord :
    afterStep (State.reset.withFetchWord 16 105) regs = some (1, 0, 105, 5, 0) := by decide

/-- The lines of P2, labels before and after their use. -/
def linesP2 : List LineFields := [
  ⟨none, "LDA", some (.label "count"), 1⟩, ⟨some "loop", "OUT", none, 2⟩,
  ⟨none, "SUB", some (.label "one"), 3⟩, ⟨none, "BRZ", some (.label "done"), 4⟩,
  ⟨none, "BRA", some (.label "loop"), 5⟩, ⟨some "done", "OUT", none, 6⟩,
  ⟨none, "COB", none, 7⟩, ⟨some "count", "DAT", some (.literal 3), 8⟩,
  ⟨some "one", "DAT", some (.literal 1), 9⟩]

/-- P2, its HLT written by its alias. -/
theorem test_assemble_P2 :
    ((parseLines linesP2).toOption.bind fun sts => (assemble unitParams sts).toOption) =
      some [507, 902, 208, 705, 601, 902, 0, 3, 1] := by decide

/-- S4, and a duplicate label (R105). -/
theorem test_assemble_errors :
    assemble unitParams [⟨none, .bra, some (.label "nowhere"), 1⟩] = .error (.undefinedLabel "nowhere" 1) ∧
      assemble unitParams [⟨some "x", .hlt, none, 1⟩, ⟨some "x", .hlt, none, 2⟩] =
        .error (.duplicateLabel "x" 2) := by decide

/-- 101 statements, one a line from line 1: the error carries the line of the last (R109, R110). -/
theorem test_assemble_image_too_long :
    assemble unitParams ((List.range 101).map fun n => ⟨none, .hlt, none, n + 1⟩) =
      .error (.imageTooLong 101) := rfl

/-- An error as a string carries its line and names the undefined label (R110, R111). -/
theorem test_error_message :
    (AssembleError.undefinedLabel "nowhere" 12).message = "line 12: undefined label nowhere" := by decide

/-- An unknown mnemonic and a wrong arity (R102, R103). -/
theorem test_parse_errors :
    parseLine ⟨none, "MUL", some (.literal 1), 3⟩ = .error (.unknownMnemonic 3) ∧
      parseLine ⟨none, "ADD", none, 4⟩ = .error (.wrongArity 4) := by decide

/-! ## Witnesses: for each statement with hypotheses, a state and operands that meet them -/

/-- A state in the middle of things: ADD 50 is next, an input is offered. -/
def demo : State := startIo 1 5 [(1, 150), (50, 7)] [some 999]

/-- A state about to run the word `w`, with nothing offered. -/
def running (w : Word) : State := start 7 5 [(7, w), (8, 150)]

theorem unitParams_legal : unitParams.Legal := ⟨fun s => ⟨wrap_inWord s, wrap_of_inWord⟩, by decide⟩

theorem noOtc_legal : noOtc.Legal := ⟨fun s => ⟨wrap_inWord s, wrap_of_inWord⟩, by decide⟩

theorem witness_AddCompletes : 0 < Config.memSize ∧ 99 < Config.memSize := by decide
theorem witness_SubCompletes : 0 < Config.memSize ∧ 99 < Config.memSize := by decide
theorem witness_StaCompletes : demo.mem.wf = true ∧ 0 < Config.memSize ∧ 99 < Config.memSize := by decide
theorem witness_LdaCompletes : 0 < Config.memSize ∧ 99 < Config.memSize := by decide
theorem witness_BraCompletes : 0 < Config.memSize ∧ 99 < Config.memSize := by decide
theorem witness_BrzCompletes :
    99 < Config.memSize ∧ (start 3 0 []).acc = 0 ∧ ¬ (start 3 (-1) []).acc = 0 := by decide
theorem witness_BrpCompletes :
    99 < Config.memSize ∧ 0 ≤ (start 3 0 []).acc ∧ ¬ 0 ≤ (start 3 (-1) []).acc := by decide

theorem witness_InpTakesAValueOrPauses :
    ((startIo 0 0 [] [some 999, none]).answers = some 999 :: [none] ∧ Config.InWord 999 ∧
        Config.InWord (-999)) ∧
      (start 0 0 []).answers.head?.join = none ∧ (startIo 0 0 [] [none]).answers.head?.join = none := by
  decide

theorem witness_InpRefusesAValueOutOfRange :
    (startIo 0 0 [] [some 1000]).answers = some 1000 :: [] ∧ ¬ Config.InWord 1000 ∧
      ¬ Config.InWord (-1000) := by decide

theorem witness_AddSubLdaFrame :
    (∃ t, exec (.add 99) demo = .next t) ∧ (∃ t, exec (.sub 0) demo = .next t) ∧
      ∃ t, exec (.lda 50) demo = .next t := ⟨⟨_, rfl⟩, ⟨_, rfl⟩, ⟨_, rfl⟩⟩

theorem witness_StaFrame : demo.mem.wf = true ∧ ∃ t, exec (.sta 99) demo = .next t := ⟨by decide, _, rfl⟩

theorem witness_BranchFrame :
    (∃ t, exec (.bra 99) demo = .next t) ∧ (∃ t, exec (.brz 0) demo = .next t) ∧
      ∃ t, exec (.brp 50) demo = .next t := ⟨⟨_, rfl⟩, ⟨_, rfl⟩, ⟨_, rfl⟩⟩

theorem witness_InputOutputFrame :
    (∃ t, exec .inp demo = .next t) ∧ (∃ t, exec .inp State.reset = .next t) ∧
      (∃ t, exec .out demo = .next t) ∧ ∃ t, exec .otc demo = .next t :=
  ⟨⟨_, rfl⟩, ⟨_, rfl⟩, ⟨_, rfl⟩, ⟨_, rfl⟩⟩

theorem witness_StepRunsTheDecodedInstruction :
    demo.WellFormed ∧ demo.pc < Config.memSize ∧
      decode unitParams (demo.mem.read demo.pc) = .instr (.add 50) := by decide

theorem witness_FetchOutOfBoundsWritesNothing :
    ((start 100 3 []).WellFormed ∧ Config.memSize ≤ (start 100 3 []).pc) ∧
      (start 127 3 []).WellFormed ∧ Config.memSize ≤ (start 127 3 []).pc := by decide

theorem witness_BadInstructionWritesOnlyCir :
    (running 450).WellFormed ∧ (running 450).pc < Config.memSize ∧
      decode unitParams ((running 450).mem.read (running 450).pc) = .invalid .fourHundred := by decide

theorem witness_ErrorsArePrecise :
    (∃ f, step (running 1) = .fault f) ∧ ∃ f, step (start 100 3 []) = .fault f :=
  ⟨⟨_, rfl⟩, ⟨_, rfl⟩⟩

theorem witness_ErrorsRecur :
    (∃ f left, step (running (-1)) = .fault f ∧ f.stateLeft = some left) ∧
      ∃ f left, step (start 127 0 []) = .fault f ∧ f.stateLeft = some left :=
  ⟨⟨_, _, rfl, rfl⟩, ⟨_, _, rfl, rfl⟩⟩

theorem witness_EveryWellFormedStateHasAnOutcome :
    demo.WellFormed ∧ ∀ v rest, demo.answers = some v :: rest → Config.InWord v :=
  ⟨by decide, fun v rest h => by cases h; decide⟩

theorem witness_IllFormedStateIsRefused :
    ¬ (start 0 1000 []).WellFormed ∧ ¬ (start 128 0 []).WellFormed ∧ ¬ (start 0 0 [(3, 0)]).WellFormed := by
  decide

theorem witness_CirHoldsTheFetchedWord : ∃ t, step demo = .next t := ⟨_, rfl⟩

theorem witness_IoCapabilityInvokedAtMostOnce :
    (∃ t, step demo = .next t ∧ t.answers = [some 999]) ∧
      (∃ t, step (startIo 0 8 [(0, 901)] [some 3]) = .next t ∧ t.answers = []) ∧
      (∃ t, step (running 902) = .next t ∧ t.outputs.length = 1) ∧
      (∃ t, step (running 922) = .next t ∧ t.outputs.length = 1) ∧
      ∃ f left, step (running 900) = .fault f ∧ f.stateLeft = some left :=
  ⟨⟨_, rfl, rfl⟩, ⟨_, rfl, rfl⟩, ⟨_, rfl, rfl⟩, ⟨_, rfl, rfl⟩, ⟨_, _, rfl, rfl⟩⟩

theorem witness_InTakeExactlyWhenAValueIsConsumed :
    (∃ t, step (startIo 0 8 [(0, 901)] [some 3]) = .next t ∧ t.report.inTake = true) ∧
      ∃ t, step (startIo 0 8 [(0, 901)] [none]) = .next t ∧ t.report.inTake = false :=
  ⟨⟨_, rfl, rfl⟩, ⟨_, rfl, rfl⟩⟩

theorem witness_PauseIsRetried :
    (∃ t, step (running 901) = .next t ∧ t.report.result = some .needInput ∧
        t.answers.head?.join = none) ∧
      ∃ t, step (startIo 0 8 [(0, 901)] [none, some 999]) = .next t ∧
        t.report.result = some .needInput ∧ t.answers = some 999 :: [] ∧ Config.InWord 999 :=
  ⟨⟨_, rfl, rfl, rfl⟩, ⟨_, rfl, rfl, rfl, by decide⟩⟩

theorem witness_StepDependsOnMachineStateAndAnswerOnly :
    SameMachine demo { demo with answers := [some 999, some 1], outputs := [⟨3, .numeric⟩] } ∧
      demo.answers.head?.join = [some (999 : Word), some 1].head?.join ∧
      (start 0 0 []).answers.head?.join = (startIo 0 0 [] [none, some 1]).answers.head?.join :=
  ⟨⟨rfl, rfl, rfl, rfl, rfl, rfl⟩, rfl, rfl⟩

theorem witness_StepAtHaltIsAStutter : State.reset.WellFormed ∧ AtHalt State.reset := by decide

theorem witness_StoreIsSeenByTheNextFetch :
    decode unitParams ((running 308).mem.read (running 308).pc) = .instr (.sta 8) ∧
      ∃ t, step (running 308) = .next t ∧ t.pc = 8 ∧ memRead t 8 = memRead t 8 :=
  ⟨by decide, _, rfl, rfl, rfl⟩

theorem witness_OnlyStaWritesMailboxes :
    ∃ t, step (running 308) = .next t ∧ memRead t 8 ≠ memRead (running 308) 8 := ⟨_, rfl, by decide⟩

theorem witness_OnlyFourInstructionsWriteAcc :
    (∃ t, step demo = .next t ∧ t.acc ≠ demo.acc) ∧
      ∃ t, step (startIo 0 8 [(0, 901)] [some 3]) = .next t ∧
        t.acc ≠ (startIo 0 8 [(0, 901)] [some 3]).acc :=
  ⟨⟨_, rfl, by decide⟩, ⟨_, rfl, by decide⟩⟩

theorem witness_PcAdvancesByOneUnlessBranchHaltOrPause :
    (∃ t, step State.reset = .next t ∧ t.pc = 0) ∧
      (∃ t, step (start 99 1 [(99, 199)]) = .next t ∧ t.pc = 100) ∧
      (∃ t, step (running 299) = .next t ∧ t.pc = 8) ∧ (∃ t, step (running 399) = .next t ∧ t.pc = 8) ∧
      (∃ t, step (running 500) = .next t ∧ t.pc = 8) ∧ (∃ t, step (running 699) = .next t ∧ t.pc = 99) ∧
      (∃ t, step (start 99 0 [(99, 750)]) = .next t ∧ t.pc = 50) ∧
      (∃ t, step (start 99 1 [(99, 750)]) = .next t ∧ t.pc = 100) ∧
      (∃ t, step (start 5 0 [(5, 808)]) = .next t ∧ t.pc = 8) ∧
      (∃ t, step (start 5 (-1) [(5, 808)]) = .next t ∧ t.pc = 6) ∧
      (∃ t, step (running 901) = .next t ∧ t.pc = 7) ∧
      (∃ t, step (startIo 99 8 [(99, 901)] [some 0]) = .next t ∧ t.pc = 100) ∧
      (∃ t, step (running 902) = .next t ∧ t.pc = 8) ∧ ∃ t, step (running 922) = .next t ∧ t.pc = 8 :=
  ⟨⟨_, rfl, rfl⟩, ⟨_, rfl, rfl⟩, ⟨_, rfl, rfl⟩, ⟨_, rfl, rfl⟩, ⟨_, rfl, rfl⟩, ⟨_, rfl, rfl⟩, ⟨_, rfl, rfl⟩,
    ⟨_, rfl, rfl⟩, ⟨_, rfl, rfl⟩, ⟨_, rfl, rfl⟩, ⟨_, rfl, rfl⟩, ⟨_, rfl, rfl⟩, ⟨_, rfl, rfl⟩, ⟨_, rfl, rfl⟩⟩

theorem witness_StepLeavesPcAtMost100 :
    ∃ t, step (start 99 1 [(99, 199)]) = .next t ∧ t.pc = 100 := ⟨_, rfl, rfl⟩

theorem witness_StepKeepsWellFormed : demo.WellFormed ∧ ∃ t, step demo = .next t := ⟨by decide, _, rfl⟩

theorem witness_ErrorsLeaveWellFormedStates :
    (running 1).WellFormed ∧ ∃ f left, step (running 1) = .fault f ∧ f.stateLeft = some left :=
  ⟨by decide, _, _, rfl, rfl⟩

theorem witness_OverflowLawWrapsSymmetrically :
    unitParams.wrapAcc 1000 = -999 ∧ unitParams.wrapAcc 1998 = -1 ∧ unitParams.wrapAcc (-1000) = 999 ∧
      unitParams.wrapAcc (-1998) = 1 ∧ unitParams.wrapAcc 999 = 999 := by decide

theorem witness_AnyLegalOverflowLawIsExactInRange :
    Config.LegalWrap wrap ∧ demo.WellFormed ∧ demo.pc < Config.memSize ∧ 50 < Config.memSize ∧
      Config.InWord (demo.acc + demo.mem.read 50) :=
  ⟨unitParams_legal.1, by decide, by decide, by decide, by decide⟩

theorem witness_SubUndoesAdd :
    (start 10 999 [(50, 1)]).WellFormed ∧
      ∃ t u, exec (.add 50) (start 10 999 [(50, 1)]) = .next t ∧ exec (.sub 50) t = .next u :=
  ⟨by decide, _, _, rfl, rfl⟩

theorem witness_FormatAOperandIsTwoLowDigits :
    unitParams.Legal ∧ ((100 : Int) ≤ 399 ∧ (399 : Int) ≤ 399) ∧ ((500 : Int) ≤ 899 ∧ (899 : Int) ≤ 899) :=
  ⟨unitParams_legal, by decide, by decide⟩

theorem witness_DecodeOfEncodeIsTheInstruction :
    unitParams.Legal ∧ (Instr.add 99).WellFormed unitParams = true ∧
      Instr.otc.WellFormed unitParams = true := ⟨unitParams_legal, by decide, by decide⟩

theorem witness_EncodeOfDecodeIsTheWord :
    decode unitParams 922 = .instr .otc ∧ decode unitParams 899 = .instr (.brp 99) := by decide

theorem witness_OtcWordIsInvalidWithoutOtc :
    noOtc.Legal ∧ noOtc.hasOtc = false ∧ (running 922).pc < Config.memSize ∧
      (running 922).mem.read (running 922).pc = noOtc.otcCode :=
  ⟨noOtc_legal, by decide, by decide, by decide⟩

theorem witness_MemWriteSetsOneMailbox :
    demo.mem.wf = true ∧ 99 < Config.memSize ∧ Config.InWord (-999) := by decide

/-- The two sides of the decoder's range (R51). -/
theorem witness_AddressDecoderSelectsExactlyTheMailboxes :
    decodeAddress 0 = some 0 ∧ decodeAddress 99 = some 99 ∧ decodeAddress 100 = none ∧
      decodeAddress 127 = none := by decide

theorem witness_LoadImageSetsAllMailboxes :
    ([507, 902] : List Word).length ≤ Config.memSize ∧ (∀ w ∈ ([507, 902] : List Word), Config.InWord w) ∧
      Config.memSize < (List.replicate 101 (0 : Word)).length := by decide

theorem witness_MachineStateRoundTrips : demo.WellFormed := by decide

theorem witness_AssembledImageLength :
    assemble unitParams [⟨none, .add, some (.literal 5), 1⟩] = .ok [105] ∧
      100 < (List.replicate 101 (⟨none, .hlt, none, 1⟩ : Statement)).length := by decide

theorem witness_AssemblerEmitsInvalidWordsOnlyForDat :
    unitParams.Legal ∧ unitParams.hasOtc = true ∧
      assemble unitParams [⟨none, .otc, none, 1⟩] = .ok [922] ∧
      ([⟨none, .otc, none, 1⟩] : List Statement)[0]? = some ⟨none, .otc, none, 1⟩ ∧
      ([922] : List Word)[0]? = some 922 ∧ (Mnemonic.otc ≠ .dat) :=
  ⟨unitParams_legal, by decide, by decide, by decide, by decide, by decide⟩

theorem witness_AssembledImageLoads :
    unitParams.Legal ∧ assemble unitParams [⟨none, .dat, some (.literal (-999)), 1⟩] = .ok [-999] :=
  ⟨unitParams_legal, by decide⟩

theorem witness_ConfiguredStepKeepsWellFormed :
    noOtc.Legal ∧ demo.WellFormed ∧ ∃ t, stepWith noOtc demo = .next t := ⟨noOtc_legal, by decide, _, rfl⟩

/-- The premises of `ConfigurationsAgreeWithoutOverflowOrOtc` on the words of a state. -/
def Agreeing (p : Config.OpenParams) (s : State) : Prop :=
  s.mem.read s.pc ≠ p.otcCode ∧ s.mem.read s.pc ≠ unitParams.otcCode ∧
    (∀ a, decode unitParams (s.mem.read s.pc) = .instr (.add a) → Config.InWord (s.acc + s.mem.read a)) ∧
    ∀ a, decode unitParams (s.mem.read s.pc) = .instr (.sub a) → Config.InWord (s.acc - s.mem.read a)

/-- ADD up to 999, SUB down to -999. -/
theorem witness_ConfigurationsAgreeWithoutOverflowOrOtc :
    noOtc.Legal ∧ Agreeing noOtc (start 0 998 [(0, 150), (50, 1)]) ∧
      Agreeing noOtc (start 0 (-998) [(0, 250), (50, 1)]) :=
  ⟨noOtc_legal,
    ⟨by decide, by decide, fun _ h => by cases h; decide, fun _ h => by cases h⟩,
    ⟨by decide, by decide, (fun _ h => by cases h), fun _ h => by cases h; decide⟩⟩

theorem witness_OtcWordRunsExactlyWithHasOtc :
    (unitParams.Legal ∧ unitParams.hasOtc = true ∧ (running 922).mem.read (running 922).pc =
        unitParams.otcCode) ∧
      noOtc.Legal ∧ noOtc.hasOtc = false ∧ (running 922).WellFormed ∧ (running 922).pc < Config.memSize ∧
      (running 922).mem.read (running 922).pc = noOtc.otcCode :=
  ⟨⟨unitParams_legal, by decide, by decide⟩, noOtc_legal, by decide, by decide, by decide, by decide⟩

theorem witness_RunIsOverAtTheFirstHaltOrError :
    (∃ t, RunSucceeds threeForEach (start 7 5 []) 0 t) ∧
      (∃ t, RunSucceeds .silent (start 4 7 [(4, 902)]) 1 t) ∧
      (∃ f, RunFails threeForEach (running 450) 0 f) ∧
      ∃ f, RunFails .silent (start 99 1 [(99, 199)]) 1 f :=
  ⟨⟨_, rfl⟩, ⟨_, rfl⟩, ⟨_, rfl⟩, ⟨_, rfl⟩⟩

/-- A run of each kind. -/
theorem witness_EveryRunEndsSuspendsOrIsInfinite :
    (demo.WellFormed ∧ loopTop.WellFormed) ∧ (∃ t, RunSucceeds .silent (start 4 7 [(4, 902)]) 1 t) ∧
      (∃ f, RunFails .silent (running 450) 0 f) ∧ (∃ t, RunSuspends .silent (running 901) 0 t) ∧
      runStatusAt (fun _ => [some 1000]) 0 (start 0 0 [(0, 901)]) =
        some (.noMeaning (.inputOutOfRange 1000)) ∧
      RunIsInfinite .silent spin ∧ RunIsInfinite threeForEach loopTop :=
  ⟨by decide, ⟨_, rfl⟩, ⟨_, rfl⟩, ⟨_, rfl⟩, rfl, test_bra_to_itself_is_infinite, test_input_loop_is_infinite⟩

end Sys2Proof.Tests
end

/-! # Proofs: the access primitives (R14) -/

namespace Sys2Proof.Machine

/-- Settles O47: below 100 the decoder selects the mailbox, so a write answers, and `memRead_of_write` says what
every address reads after it. -/
theorem memWriteSetsOneMailbox : Obligations.MemWriteSetsOneMailbox := by
  intro s a v hm ha _
  have hread := memRead_of_write (t := s.setMem (s.mem.write a v)) hm rfl
  refine ⟨memRead_of_lt ha, _, memWrite_of_lt v ha, ?same, fun b hb => ?other, rfl⟩
  case same => rw [hread, if_pos ⟨rfl, ha⟩]
  case other => rw [hread, if_neg fun h => hb h.1]

end Sys2Proof.Machine

/-! # Proofs: the saved Machine State (R34) -/

namespace Sys2Proof.Machine

theorem Memory.length_toImage (m : Memory) : m.toImage.length = Config.memSize := by
  rw [Memory.toImage, List.length_map, List.length_range]

/-- Settles O50: a restore copies the registers, and `Memory.ofImage_toImage` gives the mailboxes back from the
words saved, their list being canonical. -/
theorem machineStateRoundTrips : Obligations.MachineStateRoundTrips := by
  rintro s u ⟨-, -, -, -, -, hmem, -⟩
  exact ⟨s.mem.length_toImage, rfl, rfl, rfl, rfl, rfl, Memory.ofImage_toImage hmem⟩

end Sys2Proof.Machine

/-! # Proofs: the I/O boundary of a step (R38) -/

namespace Sys2Proof.Machine

/-- An execute phase that stops unless its operand names a mailbox: where it answers, the operand did. -/
theorem next_of_guarded {c : Prop} [Decidable c] {x t : State} {f : Fault}
    (h : (if c then .next x else .fault f : Host.Outcome State Fault Refusal) = .next t) : c ∧ t = x := by
  split at h
  · cases h
    exact ⟨‹c›, rfl⟩
  · cases h

/-- The instructions other than INP, OUT and OTC leave the I/O boundary alone (R38, R127). -/
theorem exec_boundary_of_not_io {i : Instr} {s t : State} (hinp : i ≠ .inp) (hout : ¬(i = .out ∨ i = .otc))
    (h : exec i s = .next t) : t.answers = s.answers ∧ t.outputs = s.outputs ∧ t.report = okReport := by
  cases i with
  | hlt => cases h; exact ⟨rfl, rfl, rfl⟩
  | add a | sub a | sta a | lda a =>
    simp only [exec, execAdd_eq, execSub_eq, execSta_eq, execLda_eq] at h
    obtain ⟨-, rfl⟩ := next_of_guarded h
    exact ⟨rfl, rfl, rfl⟩
  | bra a | brz a | brp a =>
    simp only [exec, execBra, execBrz, execBrp, branch_eq] at h
    cases h
    exact ⟨rfl, rfl, rfl⟩
  | inp => exact absurd rfl hinp
  | out => exact absurd (.inl rfl) hout
  | otc => exact absurd (.inr rfl) hout

/-- INP uses up one answer, taken or "not available", and emits nothing (R38, R171). -/
theorem execInp_boundary {s t : State} (h : execInp s = .next t) :
    t.answers = s.answers.tail ∧ t.outputs = s.outputs ∧ t.report.output = none := by
  obtain ⟨-, rfl⟩ | ⟨v, rest, hv, -, rfl⟩ := execInp_next h
  · exact ⟨rfl, rfl, rfl⟩
  · exact ⟨by rw [hv, List.tail_cons], rfl, rfl⟩

/-- OUT and OTC ask for no input and emit one record, which the report shows (R38, R173). -/
theorem exec_boundary_of_output {i : Instr} {s t : State} (hi : i = .out ∨ i = .otc)
    (h : exec i s = .next t) :
    t.answers = s.answers ∧ ∃ r, t.outputs = s.outputs ++ [r] ∧ t.report.output = some r := by
  obtain rfl | rfl := hi
  · rw [exec, execOut, outputAcc_eq] at h; cases h; exact ⟨rfl, _, rfl, rfl⟩
  · rw [exec, execOtc, outputAcc_eq] at h; cases h; exact ⟨rfl, _, rfl, rfl⟩

/-- What an execute phase that answers does with the I/O capability, for every instruction (R38). -/
theorem exec_boundary {i : Instr} {s t : State} (h : exec i s = .next t) :
    t.answers = (if i = .inp then s.answers.tail else s.answers) ∧
      t.outputs = (if i = .out ∨ i = .otc then s.outputs ++ t.report.output.toList else s.outputs) ∧
      (t.report.output.isSome = true ↔ i = .out ∨ i = .otc) := by
  by_cases hinp : i = .inp
  · subst hinp
    obtain ⟨hans, houts, hrep⟩ := execInp_boundary h
    simp [hans, houts, hrep]
  by_cases hout : i = .out ∨ i = .otc
  · obtain ⟨hans, r, houts, hrep⟩ := exec_boundary_of_output hout h
    simp [hinp, hout, hans, houts, hrep]
  · obtain ⟨hans, houts, hrep⟩ := exec_boundary_of_not_io hinp hout h
    simp [hinp, hout, hans, houts, hrep, okReport]

theorem stateLeft_raise (e : ExecError) (s : State) : (raise e s).stateLeft = some (errorState e s) := by
  cases e <;> rfl

/-- Settles O25: a step that answers is the execute phase of the decoded instruction, whose dealings with the
capability `exec_boundary` says; an error comes before any execute phase. -/
theorem ioCapabilityInvokedAtMostOnce : Obligations.IoCapabilityInvokedAtMostOnce := by
  refine ⟨fun s t h => ?next, fun s left f h hleft => ?fault⟩
  case next =>
    obtain ⟨-, -, i, hdec, hexec⟩ := step_next h
    have hio := exec_boundary hexec
    exact ⟨i, hdec, hio⟩
  case fault =>
    obtain ⟨-, ⟨-, rfl⟩ | ⟨-, -, -, rfl⟩⟩ := step_fault h
    all_goals
      rw [stateLeft_raise] at hleft
      cases hleft
      exact ⟨rfl, rfl⟩

end Sys2Proof.Machine

/-! # Proofs: what a step depends on (R33) -/

namespace Sys2Proof.Machine

/-! ## The step, by what the fetch finds -/

theorem step_of_pc_ge {s : State} (hs : s.WellFormed) (hpc : Config.memSize ≤ s.pc) :
    step s = .fault (raise .pcOutOfBounds s) := by
  rw [step, stepBy, if_pos hs, fetchDecode_of_ge _ hpc]

theorem step_of_invalid {s : State} {why : InvalidWord} (hs : s.WellFormed) (hpc : s.pc < Config.memSize)
    (hdec : decode unitParams (s.mem.read s.pc) = .invalid why) :
    step s = .fault (raise .badInstruction (s.setCir (s.mem.read s.pc))) := by
  rw [step, stepBy, if_pos hs, fetchDecode_of_lt _ hpc, decodeCir_invalid (why := why) hdec]

theorem step_of_instr {s : State} {i : Instr} (hs : s.WellFormed) (hpc : s.pc < Config.memSize)
    (hdec : decode unitParams (s.mem.read s.pc) = .instr i) :
    step s = exec i (s.setCir (s.mem.read s.pc)) := by
  rw [step, stepBy, if_pos hs, fetchDecode_of_lt _ hpc, decodeCir_instr (i := i) hdec]

/-! ## The same Machine State, the same effect -/

theorem SameMachine.setCir {s t : State} (h : SameMachine s t) (w : Word) :
    SameMachine (s.setCir w) (t.setCir w) := by
  obtain ⟨hpc, hacc, -, hmar, hmdr, hmem⟩ := h
  exact ⟨hpc, hacc, rfl, hmar, hmdr, hmem⟩

/-- Well-formedness speaks of the Machine State only (R42). -/
theorem SameMachine.wellFormed_iff {s t : State} (h : SameMachine s t) : s.WellFormed ↔ t.WellFormed := by
  obtain ⟨hpc, hacc, hcir, hmar, hmdr, hmem⟩ := h
  rw [State.WellFormed, hpc, hacc, hcir, hmar, hmdr, hmem]

/-- The fetch finds the same word at the same PC. -/
theorem SameMachine.fetch_eq {s t : State} (h : SameMachine s t) :
    s.pc = t.pc ∧ s.mem.read s.pc = t.mem.read t.pc := by
  obtain ⟨hpc, -, -, -, -, hmem⟩ := h
  exact ⟨hpc, by rw [hpc, hmem]⟩

/-- An error leaves the Machine State it is raised in. -/
theorem SameMachine.sameEffect_raise {s t : State} (h : SameMachine s t) (e : ExecError) :
    SameEffect (.fault (raise e s)) (.fault (raise e t)) := by
  cases e <;> exact ⟨h, rfl⟩

theorem sameEffect_ite {c : Prop} [Decidable c] {x y x' y' : Host.Outcome State Fault Refusal}
    (hpos : SameEffect x x') (hneg : SameEffect y y') :
    SameEffect (if c then x else y) (if c then x' else y') := by
  split
  · exact hpos
  · exact hneg

/-- The instructions other than INP have the same effect whatever the I/O boundary holds. -/
theorem SameMachine.sameEffect_exec {i : Instr} {s t : State} (h : SameMachine s t) (hi : i ≠ .inp) :
    SameEffect (exec i s) (exec i t) := by
  obtain ⟨pc, acc, cir, mar, mdr, mem, _, _, _⟩ := s
  obtain ⟨_, _, _, _, _, _, _, _, _⟩ := t
  simp only [SameMachine] at h
  obtain ⟨rfl, rfl, rfl, rfl, rfl, rfl⟩ := h
  cases i with
  | hlt | out | otc => exact ⟨⟨rfl, rfl, rfl, rfl, rfl, rfl⟩, rfl⟩
  | add a | sub a | sta a | lda a =>
    simp only [exec, execAdd_eq, execSub_eq, execSta_eq, execLda_eq]
    exact sameEffect_ite ⟨⟨rfl, rfl, rfl, rfl, rfl, rfl⟩, rfl⟩ rfl
  | bra a | brz a | brp a =>
    simp only [exec, execBra, execBrz, execBrp, accIsZero, accIsNonneg, branch_eq]
    exact ⟨⟨rfl, rfl, rfl, rfl, rfl, rfl⟩, rfl⟩
  | inp => exact absurd rfl hi

/-- INP has the same effect when the capability gives the same answer: a pause, or the same value. -/
theorem SameMachine.sameEffect_execInp {s t : State} (h : SameMachine s t)
    (hans : s.answers.head?.join = t.answers.head?.join) : SameEffect (execInp s) (execInp t) := by
  rcases answers_cases s with hs | ⟨v, rest, hs⟩
  · rw [execInp_none hs, execInp_none (hans ▸ hs)]
    exact ⟨h, rfl⟩
  · rcases answers_cases t with ht | ⟨w, rest', ht⟩
    · rw [ht, hs] at hans; cases hans
    · rw [hs, ht] at hans
      cases hans
      obtain ⟨hpc, -, hcir, hmar, hmdr, hmem⟩ := h
      rw [execInp_some hs, execInp_some ht]
      exact sameEffect_ite ⟨⟨congrArg (· + 1) hpc, rfl, hcir, hmar, hmdr, hmem⟩, rfl⟩ rfl

/-- Settles O28: both states are refused, or both fetch the same word, and then both steps end in the same
error or execute the same instruction, INP alone looking at the capability's answer. -/
theorem stepDependsOnMachineStateAndAnswerOnly : Obligations.StepDependsOnMachineStateAndAnswerOnly := by
  intro s t h hans
  by_cases hs : s.WellFormed
  case neg =>
    rw [step_of_not_wellFormed hs, step_of_not_wellFormed fun ht => hs (h.wellFormed_iff.2 ht)]
    rfl
  have ht : t.WellFormed := h.wellFormed_iff.1 hs
  obtain ⟨hpc, hword⟩ := h.fetch_eq
  rcases step_cases hs with ⟨hge, e⟩ | ⟨hlt, why, hdec, e⟩ | ⟨hlt, i, hdec, e⟩
  · rw [e, step_of_pc_ge ht (hpc ▸ hge)]
    exact h.sameEffect_raise _
  · rw [e, step_of_invalid ht (hpc ▸ hlt) (hword ▸ hdec), hword]
    exact (h.setCir _).sameEffect_raise _
  · rw [e, step_of_instr ht (hpc ▸ hlt) (hword ▸ hdec), hword]
    by_cases hi : i = .inp
    · subst hi
      exact (h.setCir _).sameEffect_execInp hans
    · exact (h.setCir _).sameEffect_exec hi

end Sys2Proof.Machine

/-! # Proofs: loading an image (R53) -/

namespace Sys2Proof.Machine

theorem State.loadImage_of_imageOk {s : State} {ws : List Word} (h : ImageOk ws) :
    s.loadImage ws = some (s.setMem (Memory.ofImage ws)) := if_pos h

theorem State.loadImage_of_not_imageOk {s : State} {ws : List Word} (h : ¬ ImageOk ws) :
    s.loadImage ws = none := if_neg h

/-- Mailbox `i` of a loaded image, word and zeros in one equation (R53). -/
theorem Memory.read_ofImage (i : Nat) {ws : List Word} (h : ws.length ≤ Config.memSize) :
    (Memory.ofImage ws).read i = ws.getD i Config.unlistedWord := by
  have hread := Memory.read_ofImageFrom 0 i ws (by rwa [Nat.zero_add])
  rwa [Nat.zero_add] at hread

/-- Settles O49: what is loaded is the layout of the image, whose form `Memory.wf_ofImage` gives and whose words
`Memory.read_ofImage`; a list longer than the mailboxes is no image. -/
theorem loadImageSetsAllMailboxes : Obligations.LoadImageSetsAllMailboxes := by
  refine ⟨fun s ws hlen hwords => ?image, fun s ws hlong => ?tooLong⟩
  case image =>
    have hread {i : Nat} (hi : i < Config.memSize) :
        memRead (s.setMem (Memory.ofImage ws)) i = some (ws.getD i Config.unlistedWord) := by
      rw [memRead_of_lt hi, State.setMem_mem, Memory.read_ofImage i hlen]
    refine ⟨_, State.loadImage_of_imageOk ⟨hlen, hwords⟩, rfl, Memory.wf_ofImage hlen,
      fun i hi => ?word, fun i hge hi => ?zero⟩
    case word => rw [hread (hi.trans_le hlen), List.getElem?_eq_getElem hi, List.getD_eq_getElem _ _ hi]
    case zero => rw [hread hi, List.getD_eq_default _ _ hge, Config.unlistedWord]
  case tooLong => exact State.loadImage_of_not_imageOk fun h => Nat.not_lt_of_ge h.1 hlong

end Sys2Proof.Machine

/-! # Proofs: the words of format A (R82) -/

namespace Sys2Proof

/-- The words whose opcode digit the map gives a family: 100 to 399 and 500 to 899 (R82, R84). -/
def IsFormatAWord (w : Word) : Prop := (100 ≤ w ∧ w ≤ 399) ∨ (500 ≤ w ∧ w ≤ 899)

theorem IsFormatAWord.nonneg {w : Word} (h : IsFormatAWord w) : 0 ≤ w := by
  simp only [Word, IsFormatAWord] at *; omega

/-- The digits are those `opcodeDigit_cases` lists. -/
theorem IsFormatAWord.digit_cases {w : Word} (h : IsFormatAWord w) :
    opcodeDigitOf w = 1 ∨ opcodeDigitOf w = 2 ∨ opcodeDigitOf w = 3 ∨ opcodeDigitOf w = 5 ∨
      opcodeDigitOf w = 6 ∨ opcodeDigitOf w = 7 ∨ opcodeDigitOf w = 8 := by
  simp only [Word, IsFormatAWord, opcodeDigitOf] at *; omega

/-- Each of the seven opcode digits has its instruction, with any operand (R84); the converse of
`opcodeDigit_cases`. -/
theorem exists_instr_of_digit {d : Word} (a : Nat)
    (h : d = 1 ∨ d = 2 ∨ d = 3 ∨ d = 5 ∨ d = 6 ∨ d = 7 ∨ d = 8) :
    ∃ i : Instr, i.opcodeDigit? = some d ∧ i.operand? = some a := by
  obtain rfl | rfl | rfl | rfl | rfl | rfl | rfl := h
  · exact ⟨.add a, rfl, rfl⟩
  · exact ⟨.sub a, rfl, rfl⟩
  · exact ⟨.sta a, rfl, rfl⟩
  · exact ⟨.lda a, rfl, rfl⟩
  · exact ⟨.bra a, rfl, rfl⟩
  · exact ⟨.brz a, rfl, rfl⟩
  · exact ⟨.brp a, rfl, rfl⟩

/-- No fixed code is a format A word: the three of the map are not, and R85 keeps `OTC_CODE` off them. -/
theorem IsFormatAWord.decodeFixed_eq_none {p : Config.OpenParams} {w : Word} (h : IsFormatAWord w)
    (hotc : Config.LegalOtcCode p.otcCode) : decodeFixed p w = none := by
  refine Option.eq_none_iff_forall_ne_some.2 fun i hi => ?_
  obtain ⟨hoperand, rfl, -⟩ := decodeFixed_eq_some hi
  cases i with
  | hlt | inp | out =>
    simp only [Word, IsFormatAWord, encode, Config.codeHlt, Config.codeInp, Config.codeOut] at h; omega
  | otc => simp only [Word, IsFormatAWord, Config.LegalOtcCode, encode] at *; omega
  | add a | sub a | sta a | lda a | bra a | brz a | brp a => cases hoperand

/-- A word that is no fixed code decodes by its two digits (R86); the converse of the second case of
`decode_eq_instr`. -/
theorem decode_of_digits {p : Config.OpenParams} {w : Word} {i : Instr} (hw : 0 ≤ w)
    (hfixed : decodeFixed p w = none) (hd : i.opcodeDigit? = some (opcodeDigitOf w))
    (ha : i.operand? = some (operandOf w)) : decode p w = .instr i := by
  rw [decode, if_neg (Int.not_lt.2 hw), hfixed, decodeFormatA_eq_some.2 ⟨hd, ha⟩]

/-- Settles O42: the opcode digit has its instruction, and no fixed code is tried with success before it. -/
theorem formatAOperandIsTwoLowDigits : Obligations.FormatAOperandIsTwoLowDigits := by
  rintro p w ⟨-, hotc⟩ (h : IsFormatAWord w)
  obtain ⟨i, hd, ha⟩ := exists_instr_of_digit (operandOf w) h.digit_cases
  exact ⟨i, decode_of_digits h.nonneg (h.decodeFixed_eq_none hotc) hd ha, hd, ha, operandOf_lt w⟩

end Sys2Proof

/-! # Proofs: ADD and SUB complete (R141, R142) -/

namespace Sys2Proof

/-- An opcode digit of the map and any mailbox address make a word of its families. -/
theorem isFormatAWord_formatA {i : Instr} {d : Word} {a : Nat} (hd : i.opcodeDigit? = some d)
    (ha : a < Config.memSize) : IsFormatAWord (formatA d a) := by
  have hdigit := opcodeDigit_cases hd
  simp only [Word, Config.memSize, IsFormatAWord, formatA] at *; omega

/-- The format A word of an instruction's digit and operand decodes to it (R84, R86). -/
theorem decode_formatA {p : Config.OpenParams} {i : Instr} {d : Word} {a : Nat}
    (hotc : Config.LegalOtcCode p.otcCode) (hd : i.opcodeDigit? = some d) (hi : i.operand? = some a)
    (ha : a < Config.memSize) : decode p (formatA d a) = .instr i := by
  have hw := isFormatAWord_formatA hd ha
  refine decode_of_digits hw.nonneg (hw.decodeFixed_eq_none hotc) ?digit ?operand
  case digit => rw [hd, opcodeDigitOf_formatA d ha]
  case operand => rw [hi, operandOf_formatA d ha]

end Sys2Proof

namespace Sys2Proof.Machine

theorem legalOtcCode_unitParams : Config.LegalOtcCode unitParams.otcCode := by decide

/-- The execute phase ADD and SUB share completes at every mailbox, under any law and operation (R143). -/
theorem accumulate_completes (law : Word → Word) (f : Word → Word → Word) {a : Nat} (s : State)
    (ha : a < Config.memSize) :
    ∃ t, accumulate law f a s = .next t ∧
      t.mdr = s.mem.read a ∧
      t.acc = law (f s.acc (s.mem.read a)) ∧
      t.pc = s.pc + 1 ∧
      t.report.result = some .ok ∧
      ∀ b, memRead t b = memRead s b :=
  ⟨_, (accumulate_eq law f a s).trans (if_pos ha), rfl, rfl, rfl, rfl, memRead_congr rfl⟩

/-- Settles O2: digit 1 is ADD's, and its execute phase is `accumulate` with the sum. -/
theorem addCompletes : Obligations.AddCompletes := fun _ s ha =>
  ⟨decode_formatA legalOtcCode_unitParams (d := Config.opAdd) rfl rfl ha, accumulate_completes _ _ s ha⟩

/-- Settles O3: digit 2 is SUB's, and its execute phase is `accumulate` with the difference. -/
theorem subCompletes : Obligations.SubCompletes := fun _ s ha =>
  ⟨decode_formatA legalOtcCode_unitParams (d := Config.opSub) rfl rfl ha, accumulate_completes _ _ s ha⟩

end Sys2Proof.Machine

/-! # Proofs: BRA, BRZ and BRP complete (R160, R161, R162) -/

namespace Sys2Proof.Machine

@[simp] theorem branch_pc (taken : Bool) (a : Nat) (s : State) :
    (branch taken a s).pc = if taken then a else s.pc + 1 := by rw [branch_eq]

@[simp] theorem branch_acc (taken : Bool) (a : Nat) (s : State) : (branch taken a s).acc = s.acc := by
  rw [branch_eq]

@[simp] theorem branch_report (taken : Bool) (a : Nat) (s : State) :
    (branch taken a s).report = okReport := by rw [branch_eq]

theorem accIsZero_iff {s : State} : accIsZero s = true ↔ s.acc = 0 := decide_eq_true_iff

theorem accIsNonneg_iff {s : State} : accIsNonneg s = true ↔ 0 ≤ s.acc := decide_eq_true_iff

/-- The execute phase the three branches share completes, with the condition of the branch read as a
proposition. -/
theorem branch_completes {taken : Bool} {c : Prop} [Decidable c] (hc : taken = true ↔ c) (a : Nat)
    (s : State) :
    ∃ t, (.next (branch taken a s) : Host.Outcome State Fault Refusal) = .next t ∧
      (t.pc = if c then a else s.pc + 1) ∧ t.acc = s.acc ∧ t.report.result = some .ok :=
  ⟨_, rfl, by simp only [branch_pc, hc], branch_acc .., by rw [branch_report, okReport]⟩

/-- Settles O6: digit 6 is BRA's, whose branch is taken whatever the state. -/
theorem braCompletes : Obligations.BraCompletes := by
  intro a s ha
  obtain ⟨t, hexec, hpc, hacc, hok⟩ := branch_completes (iff_true_intro (rfl : true = true)) a s
  exact ⟨decode_formatA legalOtcCode_unitParams (d := Config.opBra) rfl rfl ha, t, hexec,
    hpc.trans (if_pos trivial), hacc, hok⟩

/-- Settles O7: digit 7 is BRZ's, whose branch is taken where `accIsZero_iff` says. -/
theorem brzCompletes : Obligations.BrzCompletes := fun a s ha =>
  ⟨decode_formatA legalOtcCode_unitParams (d := Config.opBrz) rfl rfl ha, branch_completes accIsZero_iff a s⟩

/-- Settles O8: digit 8 is BRP's, whose branch is taken where `accIsNonneg_iff` says. -/
theorem brpCompletes : Obligations.BrpCompletes := fun a s ha =>
  ⟨decode_formatA legalOtcCode_unitParams (d := Config.opBrp) rfl rfl ha,
    branch_completes accIsNonneg_iff a s⟩

end Sys2Proof.Machine

/-! # Proofs: INP takes a value or pauses, and a pause is retried (R174, R175) -/

namespace Sys2Proof.Machine

/-- An answer "not available" that is used up is no value used up. -/
theorem filterMap_id_tail {l : List (Option Word)} (h : l.head?.join = none) :
    l.tail.filterMap id = l.filterMap id := by
  match l, h with
  | [], _ | none :: _, _ => rfl

/-- A pause changes no field of the Machine State (R174, D19). -/
theorem sameMachine_pauseNeedInput (s : State) (l : List (Option Word)) :
    SameMachine (pauseNeedInput (s.setAnswers l)) s := ⟨rfl, rfl, rfl, rfl, rfl, rfl⟩

theorem execInp_pauses {s : State} (h : s.answers.head?.join = none) :
    ∃ t, execInp s = .next t ∧
      SameMachine t s ∧ t.report.result = some .needInput ∧ t.outputs = s.outputs ∧
      t.answers.filterMap id = s.answers.filterMap id :=
  ⟨_, execInp_none h, sameMachine_pauseNeedInput s _, rfl, rfl, filterMap_id_tail h⟩

theorem execInp_takes {s : State} {v : Word} {rest : List (Option Word)}
    (h : s.answers = some v :: rest) (hv : Config.InWord v) :
    ∃ t, execInp s = .next t ∧
      t.acc = v ∧ t.pc = s.pc + 1 ∧ t.answers = rest ∧ t.report.result = some .ok ∧
      t.mar = s.mar ∧ t.mdr = s.mdr ∧ ∀ b, memRead t b = memRead s b :=
  ⟨_, (execInp_some h).trans (if_pos hv), rfl, rfl, rfl, rfl, rfl, rfl, memRead_congr rfl⟩

/-- Only INP pauses, and only where nothing is available (R16, R174). -/
theorem exec_needInput {i : Instr} {s t : State} (h : exec i s = .next t)
    (hpause : t.report.result = some .needInput) :
    i = .inp ∧ t = pauseNeedInput (s.setAnswers s.answers.tail) := by
  by_cases hinp : i = .inp
  · subst hinp
    obtain ⟨-, rfl⟩ | ⟨v, rest, -, -, rfl⟩ := execInp_next h
    · exact ⟨rfl, rfl⟩
    · cases hpause
  by_cases hout : i = .out ∨ i = .otc
  · obtain rfl | rfl := hout <;> cases h <;> cases hpause
  · obtain ⟨-, -, hrep⟩ := exec_boundary_of_not_io hinp hout h
    rw [hrep] at hpause
    cases hpause

/-- A step that pauses fetched an INP, and leaves the Machine State with only CIR written (R174, D19). -/
theorem step_needInput {s t : State} (h : step s = .next t) (hpause : t.report.result = some .needInput) :
    s.WellFormed ∧ s.pc < Config.memSize ∧ decode unitParams (s.mem.read s.pc) = .instr .inp ∧
      SameMachine t (s.setCir (s.mem.read s.pc)) := by
  obtain ⟨hs, hpc, i, hdec, hexec⟩ := step_next h
  obtain ⟨rfl, rfl⟩ := exec_needInput hexec hpause
  exact ⟨hs, hpc, hdec, sameMachine_pauseNeedInput ..⟩

/-- Where CIR holds the word at PC already, and that is INP's, the step is INP run in that very state. -/
theorem step_of_inp_in_cir {s : State} (hs : s.WellFormed) (hpc : s.pc < Config.memSize)
    (hdec : decode unitParams (s.mem.read s.pc) = .instr .inp) (hcir : s.cir = s.mem.read s.pc) :
    step s = execInp s := by
  rw [step_of_instr hs hpc hdec, ← hcir]
  rfl

/-- Settles O27: the state a pause leaves differs from the one before it in CIR and the I/O boundary only, so
that both fetch the same INP; CIR holds its word by then, so that the retry is INP run in the state left. -/
theorem pauseIsRetried : Obligations.PauseIsRetried := by
  intro s t h hpause
  obtain ⟨hs, hpc, hdec, hsame⟩ := step_needInput h hpause
  have ht : t.WellFormed := hsame.wellFormed_iff.2 (wellFormed_fetched hs s.pc)
  obtain ⟨hpct, hword⟩ : t.pc = s.pc ∧ t.mem.read t.pc = s.mem.read s.pc := hsame.fetch_eq
  have htpc : t.pc < Config.memSize := hpct ▸ hpc
  have htdec : decode unitParams (t.mem.read t.pc) = .instr .inp := hword ▸ hdec
  have hcir : t.cir = t.mem.read t.pc := by
    obtain ⟨-, -, hcir, -⟩ := hsame
    exact hcir.trans hword.symm
  have hretry : step t = execInp t := step_of_inp_in_cir ht htpc htdec hcir
  refine ⟨hpct, hword, htdec, fun answers => ?sameEffect, fun hnone => ?pausesAgain,
    fun v rest hv hok => ?completes⟩
  case sameEffect =>
    rw [step_of_instr (s := t.setAnswers answers) ht htpc htdec,
      step_of_instr (s := s.setAnswers answers) hs hpc hdec, State.setAnswers_mem, State.setAnswers_pc, hword]
    exact SameMachine.sameEffect_execInp (hsame.setCir (s.mem.read s.pc)) rfl
  case pausesAgain =>
    obtain ⟨u, hexec, hu, hresult, -, -⟩ := execInp_pauses hnone
    exact ⟨u, hretry.trans hexec, hu, hresult⟩
  case completes =>
    obtain ⟨u, hexec, hacc, hpcu, -, hresult, -, -, -⟩ := execInp_takes hv hok
    exact ⟨u, hretry.trans hexec, hacc, hpcu, hresult⟩

/-- Settles O9: an answer that is a value is taken, any other pauses. -/
theorem inpTakesAValueOrPauses : Obligations.InpTakesAValueOrPauses :=
  ⟨by decide, fun _ _ _ h hv => execInp_takes h hv, fun _ h => execInp_pauses h⟩

end Sys2Proof.Machine

/-! # Proofs: OUT completes (R176) -/

namespace Sys2Proof.Machine

/-- The execute phase OUT and OTC share completes, with the record of its kind. -/
theorem outputAcc_completes (kind : OutputKind) (s : State) :
    ∃ t, (.next (outputAcc kind s) : Host.Outcome State Fault Refusal) = .next t ∧
      t.outputs = s.outputs ++ [{ value := s.acc, kind := kind }] ∧
      t.report.output = some { value := s.acc, kind := kind } ∧
      t.pc = s.pc + 1 ∧ t.acc = s.acc ∧ t.mar = s.mar ∧ t.mdr = s.mdr ∧
      t.report.result = some .ok :=
  ⟨_, congrArg _ (outputAcc_eq kind s), rfl, rfl, rfl, rfl, rfl, rfl, rfl⟩

/-- Settles O11: 902 is OUT's fixed code, and its record is the accumulator as a number. -/
theorem outCompletes : Obligations.OutCompletes := fun s =>
  ⟨by decide, outputAcc_completes .numeric s⟩

end Sys2Proof.Machine

/-! # Proofs: the errors of a step, and an outcome for every step (R197, R198) -/

namespace Sys2Proof.Machine

/-! ## Errors are precise (R197) -/

/-- Whatever error ends a step, nothing but CIR was written before it was raised (R122, R124). -/
theorem step_fault_raise_setCir {s : State} {f : Fault} (h : step s = .fault f) :
    ∃ e w, f = raise e (s.setCir w) := by
  obtain ⟨-, ⟨-, hf⟩ | ⟨-, -, -, hf⟩⟩ := step_fault h
  · exact ⟨.pcOutOfBounds, s.cir, hf⟩
  · exact ⟨.badInstruction, s.mem.read s.pc, hf⟩

/-- Settles O20: the error is raised in `s` with at most CIR written, and raising it writes the report only. -/
theorem errorsArePrecise : Obligations.ErrorsArePrecise := by
  intro s f h
  obtain ⟨e, w, rfl⟩ := step_fault_raise_setCir h
  exact ⟨_, stateLeft_raise e _, rfl, rfl, rfl, rfl, memRead_congr rfl, rfl, rfl, rfl, rfl⟩

/-! ## Every step has an outcome (R198) -/

/-- The instructions other than INP complete, when the operand, if there is one, names a mailbox (R52, R127). -/
theorem exec_completes {i : Instr} (s : State) (hinp : i ≠ .inp)
    (hop : ∀ a, i.operand? = some a → a < Config.memSize) :
    ∃ t, exec i s = .next t ∧ t.report.result = some .ok := by
  cases i with
  | hlt | out | otc => exact ⟨_, rfl, rfl⟩
  | add a | sub a | sta a | lda a =>
    simp only [exec, execAdd_eq, execSub_eq, execSta_eq, execLda_eq, if_pos (hop a rfl)]
    exact ⟨_, rfl, rfl⟩
  | bra a | brz a | brp a => exact ⟨_, rfl, by rw [branch_report, okReport]⟩
  | inp => exact absurd rfl hinp

/-- INP completes or pauses, when the capability offers legal values only (R172, R174). -/
theorem execInp_completes_or_pauses {s : State}
    (hin : ∀ v rest, s.answers = some v :: rest → Config.InWord v) :
    ∃ t, execInp s = .next t ∧ (t.report.result = some .ok ∨ t.report.result = some .needInput) := by
  rcases answers_cases s with hnone | ⟨v, rest, hv⟩
  · exact ⟨_, execInp_none hnone, .inr rfl⟩
  · exact ⟨_, (execInp_some hv).trans (if_pos (hin v rest hv)), .inl rfl⟩

/-- Settles O22: the fetch is out of bounds, the word fetched is invalid, or it is an instruction, whose operand
then names a mailbox, so that it completes or, being INP, may pause. -/
theorem everyWellFormedStateHasAnOutcome : Obligations.EveryWellFormedStateHasAnOutcome := by
  intro s hs hin
  rcases step_cases hs with ⟨-, e⟩ | ⟨-, -, -, e⟩ | ⟨-, i, hdec, e⟩
  · exact .inr (.inl ⟨_, e, rfl⟩)
  · exact .inr (.inr ⟨_, e, rfl⟩)
  · rw [e]
    left
    by_cases hinp : i = .inp
    · subst hinp
      exact execInp_completes_or_pauses (s := s.setCir (s.mem.read s.pc)) hin
    · obtain ⟨t, hexec, hok⟩ := exec_completes (s.setCir (s.mem.read s.pc)) hinp
        fun _ ha => operand_lt_of_decode hdec ha
      exact ⟨t, hexec, .inl hok⟩

end Sys2Proof.Machine

/-! # Proofs: decode and encode agree (R84, R86) -/

namespace Sys2Proof

/-- The word of OTC is a fixed code of the decoder when there is OTC; none of the three codes tried before it
is the same word (R85). -/
theorem decodeFixed_otcCode {p : Config.OpenParams} (hotc : Config.LegalOtcCode p.otcCode)
    (hp : p.hasOtc = true) : decodeFixed p p.otcCode = some .otc := by
  have hne : p.otcCode ≠ Config.codeHlt ∧ p.otcCode ≠ Config.codeInp ∧ p.otcCode ≠ Config.codeOut := by
    simp only [Word, Config.LegalOtcCode, Config.codeHlt, Config.codeInp, Config.codeOut] at *
    omega
  obtain ⟨hhlt, hinp, hout⟩ := hne
  rw [decodeFixed, if_neg hhlt, if_neg hinp, if_neg hout, if_pos ⟨rfl, hp⟩]

theorem decode_of_fixed {p : Config.OpenParams} {w : Word} {i : Instr} (hw : 0 ≤ w)
    (h : decodeFixed p w = some i) : decode p w = .instr i := by
  rw [decode, if_neg (Int.not_lt.2 hw), h]

/-- Decoding the word of a well-formed instruction gives it back. -/
theorem decode_encode {p : Config.OpenParams} {i : Instr} (hotc : Config.LegalOtcCode p.otcCode)
    (hi : i.WellFormed p = true) : decode p (encode p i) = .instr i := by
  cases i with
  | hlt | inp | out => exact decode_of_fixed (by simp only [encode]; decide) rfl
  | add a | sub a | sta a | lda a | bra a | brz a | brp a =>
    exact decode_formatA hotc rfl rfl (of_decide_eq_true hi)
  | otc =>
    have hw : 0 ≤ p.otcCode := by simp only [Word, Config.LegalOtcCode] at *; omega
    exact decode_of_fixed hw (decodeFixed_otcCode hotc hi)

/-- Settles O44: a format A word decodes by its digits, a format F word is one of the decoder's fixed codes. -/
theorem decodeOfEncodeIsTheInstruction : Obligations.DecodeOfEncodeIsTheInstruction :=
  fun _ _ ⟨_, hotc⟩ hi => decode_encode hotc hi

/-- A format A instruction is well-formed when its operand is a mailbox address (R82). -/
theorem wellFormed_of_operand {p : Config.OpenParams} {i : Instr} {a : Nat} (hi : i.operand? = some a)
    (ha : a < Config.memSize) : i.WellFormed p = true := by
  cases i <;> cases hi <;> exact decide_eq_true ha

/-- Settles O45: the word is the fixed code of its instruction, or is made of the two digits it decodes by. -/
theorem encodeOfDecodeIsTheWord : Obligations.EncodeOfDecodeIsTheWord := by
  intro p w i h
  obtain ⟨-, hfixed | ⟨-, hd, ha⟩⟩ := decode_eq_instr h
  · obtain ⟨-, hword, hi⟩ := decodeFixed_eq_some hfixed
    exact ⟨hword, hi⟩
  · exact ⟨(encode_formatA hd ha).trans (formatA_digits w), wellFormed_of_operand ha (operandOf_lt w)⟩

/-! ## Which words decode -/

/-- The words of the opcode map (R84): the format A words and the fixed codes, OTC's when there is OTC. -/
def IsInstrWord (p : Config.OpenParams) (w : Word) : Prop :=
  IsFormatAWord w ∨ w = Config.codeHlt ∨ w = Config.codeInp ∨ w = Config.codeOut ∨
    (w = p.otcCode ∧ p.hasOtc = true)

theorem isFormatAWord_encode {p : Config.OpenParams} {i : Instr} {d : Word} {a : Nat}
    (hd : i.opcodeDigit? = some d) (hi : i.operand? = some a) (ha : a < Config.memSize) :
    IsFormatAWord (encode p i) := encode_formatA (p := p) hd hi ▸ isFormatAWord_formatA hd ha

theorem isInstrWord_encode {p : Config.OpenParams} {i : Instr} (hi : i.WellFormed p = true) :
    IsInstrWord p (encode p i) := by
  cases i with
  | hlt => exact .inr (.inl rfl)
  | inp => exact .inr (.inr (.inl rfl))
  | out => exact .inr (.inr (.inr (.inl rfl)))
  | otc => exact .inr (.inr (.inr (.inr ⟨rfl, hi⟩)))
  | add a | sub a | sta a | lda a | bra a | brz a | brp a =>
    exact .inl (isFormatAWord_encode rfl rfl (of_decide_eq_true hi))

/-- Every word of the map is the word of a well-formed instruction. -/
theorem IsInstrWord.exists_encode {p : Config.OpenParams} {w : Word} (h : IsInstrWord p w) :
    ∃ i : Instr, i.WellFormed p = true ∧ encode p i = w := by
  obtain hA | rfl | rfl | rfl | ⟨rfl, hp⟩ := h
  · obtain ⟨i, hd, ha⟩ := exists_instr_of_digit (operandOf w) hA.digit_cases
    exact ⟨i, wellFormed_of_operand ha (operandOf_lt w), (encode_formatA hd ha).trans (formatA_digits w)⟩
  · exact ⟨.hlt, rfl, rfl⟩
  · exact ⟨.inp, rfl, rfl⟩
  · exact ⟨.out, rfl, rfl⟩
  · exact ⟨.otc, hp, rfl⟩

/-- The words that decode to an instruction are those of the map, under every legal configuration. -/
theorem decode_isInstr_iff {p : Config.OpenParams} {w : Word} (hotc : Config.LegalOtcCode p.otcCode) :
    (∃ i, decode p w = .instr i) ↔ IsInstrWord p w := by
  constructor
  · rintro ⟨i, h⟩
    obtain ⟨rfl, hi⟩ := encodeOfDecodeIsTheWord p w i h
    exact isInstrWord_encode hi
  · intro h
    obtain ⟨i, hi, rfl⟩ := h.exists_encode
    exact ⟨i, decode_encode hotc hi⟩

/-- The decoder answers an instruction or `Invalid`, never both (R86). -/
theorem decode_isInvalid_iff {p : Config.OpenParams} {w : Word} (hotc : Config.LegalOtcCode p.otcCode) :
    (∃ why, decode p w = .invalid why) ↔ ¬ IsInstrWord p w := by
  rw [← decode_isInstr_iff hotc]
  cases decode p w <;> simp

/-- Settles O43: the listed words are the complement of the unit's map, whose OTC word is 922. -/
theorem invalidWordsAreExactly : Obligations.InvalidWordsAreExactly := by
  intro w
  rw [decode_isInvalid_iff Machine.legalOtcCode_unitParams]
  simp only [IsInstrWord, IsFormatAWord, Config.codeHlt, Config.codeInp, Config.codeOut,
    Machine.unitParams, and_true, Word]
  omega

/-- R85 keeps the word of OTC off the rest of the map, so that without OTC it is invalid. -/
theorem decode_otcCode_invalid {p : Config.OpenParams} (hotc : Config.LegalOtcCode p.otcCode)
    (hp : p.hasOtc = false) : ∃ why, decode p p.otcCode = .invalid why := by
  have hword : ¬ (p.otcCode = p.otcCode ∧ p.hasOtc = true) := fun h => Bool.false_ne_true (hp ▸ h.2)
  rw [decode_isInvalid_iff hotc, IsInstrWord, or_iff_left hword]
  simp only [IsFormatAWord, Config.codeHlt, Config.codeInp, Config.codeOut, Config.LegalOtcCode, Word] at *
  omega

/-- Settles O41: one word of each row, evaluated. -/
theorem sampleWordsDecode : Obligations.SampleWordsDecode := by
  unfold Obligations.SampleWordsDecode
  decide

end Sys2Proof

namespace Sys2Proof.Machine

/-- Settles O46: the fetch puts the word into CIR, and the decode finds it invalid. -/
theorem otcWordIsInvalidWithoutOtc : Obligations.OtcWordIsInvalidWithoutOtc := by
  rintro p s ⟨-, hotc⟩ hp hpc hword
  obtain ⟨why, hdec⟩ := decode_otcCode_invalid hotc hp
  rw [fetchDecode_of_lt p hpc, hword, decodeCir_invalid (s := s.setCir p.otcCode) hdec, raise]

end Sys2Proof.Machine

/-! # Proofs: the configured execute phase, said once (R121, R126) -/

namespace Sys2Proof.Machine

/-- The states an execute phase can answer, one way for each instruction and two for INP (R141 to R185). -/
inductive Leaves (p : Config.OpenParams) (s : State) : Instr → State → Prop
  | hlt : Leaves p s .hlt { s with report := okReport }
  | add {a : Nat} (ha : a < Config.memSize) : Leaves p s (.add a)
      { s with mar := a, mdr := s.mem.read a, acc := p.wrapAcc (s.acc + s.mem.read a), pc := s.pc + 1,
               report := okReport }
  | sub {a : Nat} (ha : a < Config.memSize) : Leaves p s (.sub a)
      { s with mar := a, mdr := s.mem.read a, acc := p.wrapAcc (s.acc - s.mem.read a), pc := s.pc + 1,
               report := okReport }
  | sta {a : Nat} (ha : a < Config.memSize) : Leaves p s (.sta a)
      { s with mar := a, mdr := s.acc, mem := s.mem.write a s.acc, pc := s.pc + 1, report := okReport }
  | lda {a : Nat} (ha : a < Config.memSize) : Leaves p s (.lda a)
      { s with mar := a, mdr := s.mem.read a, acc := s.mem.read a, pc := s.pc + 1, report := okReport }
  | bra {a : Nat} : Leaves p s (.bra a) { s with mar := a, pc := a, report := okReport }
  | brz {a : Nat} : Leaves p s (.brz a)
      { s with mar := a, pc := if s.acc = 0 then a else s.pc + 1, report := okReport }
  | brp {a : Nat} : Leaves p s (.brp a)
      { s with mar := a, pc := if 0 ≤ s.acc then a else s.pc + 1, report := okReport }
  | inpPause (hans : s.answers.head?.join = none) :
      Leaves p s .inp (pauseNeedInput (s.setAnswers s.answers.tail))
  | inpTake {v : Word} {rest : List (Option Word)} (hans : s.answers = some v :: rest)
      (hv : Config.InWord v) : Leaves p s .inp
      { s with acc := v, pc := s.pc + 1, answers := rest,
               report := { result := some .ok, inTake := true, output := none } }
  | out : Leaves p s .out (outputAcc .numeric s)
  | otc : Leaves p s .otc (outputAcc .character s)

/-- Every next state of the configured execute phase. -/
theorem leaves_of_execWith {p : Config.OpenParams} {i : Instr} {s t : State}
    (h : execWith p i s = .next t) : Leaves p s i t := by
  cases i with
  | hlt => cases h; exact .hlt
  | add a =>
    rw [execWith, addWith, accumulate_eq] at h
    obtain ⟨ha, rfl⟩ := next_of_guarded h
    exact .add ha
  | sub a =>
    rw [execWith, subWith, accumulate_eq] at h
    obtain ⟨ha, rfl⟩ := next_of_guarded h
    exact .sub ha
  | sta a =>
    rw [execWith, execSta_eq] at h
    obtain ⟨ha, rfl⟩ := next_of_guarded h
    exact .sta ha
  | lda a =>
    rw [execWith, execLda_eq] at h
    obtain ⟨ha, rfl⟩ := next_of_guarded h
    exact .lda ha
  | bra a =>
    rw [execWith, execBra, branch_eq] at h
    cases h
    exact .bra
  | brz a =>
    simp only [execWith, execBrz, branch_eq, accIsZero_iff] at h
    cases h
    exact .brz
  | brp a =>
    simp only [execWith, execBrp, branch_eq, accIsNonneg_iff] at h
    cases h
    exact .brp
  | inp =>
    obtain ⟨hans, rfl⟩ | ⟨v, rest, hans, hv, rfl⟩ := execInp_next h
    · exact .inpPause hans
    · exact .inpTake hans hv
  | out => cases h; exact .out
  | otc => cases h; exact .otc

theorem exec_eq_execWith (i : Instr) (s : State) : exec i s = execWith unitParams i s := by
  cases i <;> rfl

theorem step_eq_stepWith (s : State) : step s = stepWith unitParams s := by
  have hrun : exec = execWith unitParams := funext fun i => funext (exec_eq_execWith i)
  rw [step, stepWith, hrun]

/-- Settles O55: each meaning at the defaults is by definition the configured one at `unitParams`. -/
theorem stepIsTheConfiguredStepAtTheDefaults : Obligations.StepIsTheConfiguredStepAtTheDefaults :=
  fun s => ⟨step_eq_stepWith s, fun i => exec_eq_execWith i s⟩

theorem leaves_of_exec {i : Instr} {s t : State} (h : exec i s = .next t) : Leaves unitParams s i t :=
  leaves_of_execWith (exec_eq_execWith i s ▸ h)

/-- A configured step that answers ran the instruction at PC, in the state with its word in CIR. -/
theorem stepWith_next {p : Config.OpenParams} {s t : State} (hs : s.WellFormed)
    (h : stepWith p s = .next t) :
    s.pc < Config.memSize ∧ ∃ i, decode p (s.mem.read s.pc) = .instr i ∧
      Leaves p (s.setCir (s.mem.read s.pc)) i t := by
  rcases stepWith_cases p hs with ⟨-, e⟩ | ⟨-, -, -, e⟩ | ⟨hpc, i, hdec, e⟩
  · rw [e] at h; cases h
  · rw [e] at h; cases h
  · exact ⟨hpc, i, hdec, leaves_of_execWith (e ▸ h)⟩

/-- `stepWith_next` of the unit's step. -/
theorem step_leaves {s t : State} (h : step s = .next t) :
    s.WellFormed ∧ s.pc < Config.memSize ∧ ∃ i, decode unitParams (s.mem.read s.pc) = .instr i ∧
      Leaves unitParams (s.setCir (s.mem.read s.pc)) i t := by
  obtain ⟨hs, hpc, i, hdec, hexec⟩ := step_next h
  exact ⟨hs, hpc, i, hdec, leaves_of_exec hexec⟩

end Sys2Proof.Machine

/-! # Proofs: every step keeps the state well-formed (R43) -/

namespace Sys2Proof.Machine

/-- Settles O38: `wrap_inWord` and `wrap_of_inWord` make the law legal, and on the sums that arise the remainder
modulo 1999 is a shift by it. -/
theorem overflowLawWrapsSymmetrically : Obligations.OverflowLawWrapsSymmetrically := by
  refine ⟨fun s => ⟨wrap_inWord s, wrap_of_inWord⟩, fun s hlo hhi => ?_⟩
  simp only [unitParams, wrap, Word]
  split_ifs <;> omega

theorem legal_unitParams : unitParams.Legal :=
  ⟨overflowLawWrapsSymmetrically.1, legalOtcCode_unitParams⟩

/-- Settles O37: every clause is about a constant. -/
theorem resetStateIsWellFormed : Obligations.ResetStateIsWellFormed := by
  unfold Obligations.ResetStateIsWellFormed
  decide

/-- PC + 1 from a mailbox is within the container of PC (R23, R24). -/
theorem succ_le_pcMax {n : Nat} (h : n < Config.memSize) : n + 1 ≤ Config.pcMax := by
  simp only [Config.memSize, Config.pcMax] at *; omega

theorem le_pcMax {a : Nat} (h : a < Config.memSize) : a ≤ Config.pcMax :=
  Nat.le_of_succ_le (succ_le_pcMax h)

/-- The execute phase of an instruction that names a mailbox keeps the state well-formed, where the overflow law
gives legal words. -/
theorem Leaves.wellFormed {p : Config.OpenParams} {i : Instr} {s t : State} (h : Leaves p s i t)
    (hlaw : Config.LegalWrap p.wrapAcc) (hs : s.WellFormed) (hpc : s.pc < Config.memSize)
    (hop : ∀ a, i.operand? = some a → a < Config.memSize) : t.WellFormed := by
  have hnext := succ_le_pcMax hpc
  obtain ⟨hle, hacc, hcir, hmar, hmdr, hwf, hwords⟩ := hs
  cases h with
  | hlt | inpPause => exact ⟨hle, hacc, hcir, hmar, hmdr, hwf, hwords⟩
  | add ha | sub ha => exact ⟨hnext, (hlaw _).1, hcir, ha, Memory.read_inWord hwords _, hwf, hwords⟩
  | sta ha =>
    exact ⟨hnext, hacc, hcir, ha, hacc, Memory.wf_write _ hwf ha, Memory.wordsOk_write hacc hwords⟩
  | lda ha =>
    have hread := Memory.read_inWord hwords
    exact ⟨hnext, hread _, hcir, ha, hread _, hwf, hwords⟩
  | bra =>
    have ha := hop _ rfl
    exact ⟨le_pcMax ha, hacc, hcir, ha, hmdr, hwf, hwords⟩
  | brz | brp =>
    have ha := hop _ rfl
    refine ⟨?_, hacc, hcir, ha, hmdr, hwf, hwords⟩
    split_ifs
    · exact le_pcMax ha
    · exact hnext
  | inpTake _ hv => exact ⟨hnext, hv, hcir, hmar, hmdr, hwf, hwords⟩
  | out | otc => exact ⟨hnext, hacc, hcir, hmar, hmdr, hwf, hwords⟩

/-- Settles O56: the fetched word is legal, the operand it decodes to is a mailbox address, and the execute
phase keeps the state well-formed. -/
theorem configuredStepKeepsWellFormed : Obligations.ConfiguredStepKeepsWellFormed := by
  rintro p s t ⟨hlaw, -⟩ hs h
  obtain ⟨hpc, i, hdec, hleaves⟩ := stepWith_next hs h
  exact hleaves.wellFormed hlaw (wellFormed_fetched hs _) hpc fun _ ha => operand_lt_of_decode hdec ha

/-- Settles O35: the unit is a legal configuration. -/
theorem stepKeepsWellFormed : Obligations.StepKeepsWellFormed := fun s t hs h =>
  configuredStepKeepsWellFormed unitParams s t legal_unitParams hs (step_eq_stepWith s ▸ h)

end Sys2Proof.Machine

/-! # Proofs: what each instruction leaves unchanged (R46, R164) -/

namespace Sys2Proof.Machine

/-- Settles O13: the three leave the mailboxes and the I/O boundary as they were. -/
theorem addSubLdaFrame : Obligations.AddSubLdaFrame := by
  rintro a i s t (rfl | rfl | rfl) h
  all_goals
    cases leaves_of_exec h
    exact ⟨rfl, rfl, rfl, rfl, rfl, rfl, memRead_congr rfl⟩

/-- Settles O14: the effective address is the operand, where alone `memRead_of_write` sees the write. -/
theorem staFrame : Obligations.StaFrame := by
  intro a s t hwf h
  cases leaves_of_exec h with
  | sta ha =>
    refine ⟨rfl, rfl, rfl, rfl, rfl, rfl, rfl, fun b (hb : b ≠ a) => ?_⟩
    rw [memRead_of_write hwf rfl, if_neg fun hab => hb hab.1]

/-- Settles O15: taken or not, a branch writes PC, MAR and the report. -/
theorem branchFrame : Obligations.BranchFrame := by
  rintro a i s t (rfl | rfl | rfl) h
  all_goals
    cases leaves_of_exec h
    exact ⟨rfl, rfl, rfl, rfl, rfl, rfl, rfl, rfl, memRead_congr rfl⟩

/-- Settles O16: a pause and a value taken emit nothing, OUT and OTC ask for nothing. -/
theorem inputOutputFrame : Obligations.InputOutputFrame := by
  rintro i s t (rfl | rfl | rfl) h
  case inl =>
    cases leaves_of_exec h with
    | inpPause | inpTake =>
      exact ⟨rfl, rfl, rfl, memRead_congr rfl, fun _ => ⟨rfl, rfl⟩, fun hne => absurd rfl hne⟩
  case inr.inl | inr.inr =>
    cases leaves_of_exec h
    exact ⟨rfl, rfl, rfl, memRead_congr rfl, nofun, fun _ => ⟨rfl, rfl, rfl⟩⟩

end Sys2Proof.Machine

/-! # Proofs: what each instruction does (R140 to R185) -/

namespace Sys2Proof.Machine

/-- Settles O1: 0 is HLT's fixed code, and its execute phase only completes. -/
theorem hltCompletesAndChangesNothing : Obligations.HltCompletesAndChangesNothing :=
  fun _ => ⟨by decide, rfl⟩

/-- Settles O4: digit 3 is STA's, and `memRead_of_write` says what every address reads after the write. -/
theorem staCompletes : Obligations.StaCompletes := by
  intro a s hwf ha
  have hread := memRead_of_write (t := { s with mem := s.mem.write a s.acc }) hwf rfl
  refine ⟨decode_formatA legalOtcCode_unitParams (d := Config.opSta) rfl rfl ha,
    _, (execSta_eq a s).trans (if_pos ha), rfl, ?same, fun b hb => ?other, rfl, rfl, rfl⟩
  case same => exact (hread a).trans (if_pos ⟨rfl, ha⟩)
  case other => exact (hread b).trans (if_neg fun hab => hb hab.1)

/-- Settles O5: digit 5 is LDA's, and the word of the mailbox passes through MDR to ACC. -/
theorem ldaCompletes : Obligations.LdaCompletes := fun a s ha =>
  ⟨decode_formatA legalOtcCode_unitParams (d := Config.opLda) rfl rfl ha,
    _, (execLda_eq a s).trans (if_pos ha), rfl, rfl, rfl, rfl, memRead_congr rfl⟩

/-- Settles O10: a value offered is taken only where it is a legal word. -/
theorem inpRefusesAValueOutOfRange : Obligations.InpRefusesAValueOutOfRange :=
  fun _ _ _ hans hv => (execInp_some hans).trans (if_neg hv)

/-- Settles O12: the unit has OTC, whose record is the accumulator as a character. -/
theorem otcCompletes : Obligations.OtcCompletes := fun s =>
  ⟨decode_encode (i := .otc) legalOtcCode_unitParams rfl, outputAcc_completes .character s⟩

/-- Settles O39: the mailbox read is a legal word, and so is whatever a legal law gives. -/
theorem anyLegalOverflowLawIsExactInRange : Obligations.AnyLegalOverflowLawIsExactInRange := by
  intro law f a s hlaw hs hpc ha
  obtain ⟨-, -, hcir, -, -, hwf, hwords⟩ := hs
  exact ⟨_, (accumulate_eq law f a s).trans (if_pos ha),
    ⟨succ_le_pcMax hpc, (hlaw _).1, hcir, ha, Memory.read_inWord hwords a, hwf, hwords⟩, (hlaw _).2⟩

/-- The wrap is a remainder modulo 1999, so taking away what was added undoes it. -/
theorem wrap_sub_wrap_add {x : Word} (hx : Config.InWord x) (m : Word) :
    wrap (wrap (x + m) - m) = x := by
  simp only [Word, Config.InWord, Config.wordMin, Config.wordMax, wrap] at *
  omega

/-- Settles O40: ADD leaves the mailbox, so that SUB takes away the word ADD added. -/
theorem subUndoesAdd : Obligations.SubUndoesAdd := by
  rintro a s t u ⟨-, hacc, -⟩ hadd hsub
  cases leaves_of_exec hadd
  cases leaves_of_exec hsub
  exact wrap_sub_wrap_add hacc _

/-- Settles O48: `a < 100` and `a ≤ 99` are the same test. -/
theorem addressDecoderSelectsExactlyTheMailboxes : Obligations.AddressDecoderSelectsExactlyTheMailboxes := by
  intro s a v
  rcases Nat.lt_or_ge a Config.memSize with h | h
  · have ha : a ≤ 99 := Nat.le_of_lt_succ h
    simp [memRead_of_lt h, memWrite_of_lt v h, decodeAddress_of_lt h, ha]
  · have ha : ¬ a ≤ 99 := Nat.not_le_of_gt h
    simp [memRead_of_ge h, memWrite_of_ge v h, decodeAddress_of_ge h, ha]

/-- Settles O51: both write the constants. -/
theorem resetClearsTheRegisters : Obligations.ResetClearsTheRegisters :=
  ⟨⟨rfl, rfl, rfl, rfl, rfl⟩, fun _ => ⟨rfl, rfl, rfl, rfl, rfl, rfl, rfl, rfl, rfl⟩⟩

end Sys2Proof.Machine

/-! # Proofs: the fetch and the errors of a step (R121 to R124, R199) -/

namespace Sys2Proof.Machine

/-- Settles O17: the fetch from a mailbox, its decode, then the execute phase. -/
theorem stepRunsTheDecodedInstruction : Obligations.StepRunsTheDecodedInstruction :=
  fun _ _ hs hpc hdec => step_of_instr hs hpc hdec

/-- Settles O18: the error is raised in the state itself. -/
theorem fetchOutOfBoundsWritesNothing : Obligations.FetchOutOfBoundsWritesNothing :=
  fun _ hs hpc => ⟨_, step_of_pc_ge hs hpc, ⟨rfl, rfl, rfl, rfl, rfl, rfl⟩, rfl⟩

/-- Settles O19: the error is raised after the write of CIR. -/
theorem badInstructionWritesOnlyCir : Obligations.BadInstructionWritesOnlyCir :=
  fun _ _ hs hpc hdec => ⟨_, step_of_invalid hs hpc hdec, ⟨rfl, rfl, rfl, rfl, rfl, rfl⟩, rfl⟩

/-- Settles O23: the test comes before the fetch. -/
theorem illFormedStateIsRefused : Obligations.IllFormedStateIsRefused :=
  fun _ hs => step_of_not_wellFormed hs

/-- An error is raised in a well-formed state: that of the step, or that with the fetched word in CIR; raised
there again it is the same. -/
theorem step_fault_stateLeft {s left : State} {f : Fault} (h : step s = .fault f)
    (hleft : f.stateLeft = some left) : left.WellFormed ∧ step left = .fault f := by
  obtain ⟨hs, ⟨hpc, rfl⟩ | ⟨hpc, why, hdec, rfl⟩⟩ := step_fault h
  all_goals
    rw [stateLeft_raise] at hleft
    cases hleft
  · exact ⟨hs, step_of_pc_ge hs hpc⟩
  · have hs' := wellFormed_fetched hs s.pc
    exact ⟨hs', step_of_invalid (s := errorState .badInstruction (s.setCir _)) hs' hpc hdec⟩

/-- Settles O21: the unit keeps nothing of the error that the next step would see. -/
theorem errorsRecur : Obligations.ErrorsRecur := fun _ _ _ h hleft => (step_fault_stateLeft h hleft).2

/-- Settles O36: CIR, if written, holds the fetched word, which is legal. -/
theorem errorsLeaveWellFormedStates : Obligations.ErrorsLeaveWellFormedStates :=
  fun _ _ _ _ h hleft => (step_fault_stateLeft h hleft).1

end Sys2Proof.Machine

/-! # Proofs: what a step changes -/

namespace Sys2Proof.Machine

/-! ## CIR (R28) -/

theorem Leaves.cir_eq {p : Config.OpenParams} {i : Instr} {s t : State} (h : Leaves p s i t) :
    t.cir = s.cir := by
  cases h <;> rfl

/-- Settles O24: the fetch writes CIR, and no execute phase does. -/
theorem cirHoldsTheFetchedWord : Obligations.CirHoldsTheFetchedWord := by
  intro s t h
  obtain ⟨-, -, i, -, hleaves⟩ := step_leaves h
  exact hleaves.cir_eq

/-! ## The mailboxes (R55, R65) -/

/-- No execute phase but STA's writes a mailbox. -/
theorem Leaves.mem_eq {p : Config.OpenParams} {i : Instr} {s t : State} (h : Leaves p s i t)
    (hi : ∀ a, i ≠ .sta a) : t.mem = s.mem := by
  cases h with
  | sta => exact absurd rfl (hi _)
  | _ => rfl

/-- STA completes at a mailbox only, and then its address alone reads otherwise, as ACC. -/
theorem Leaves.memRead_sta {p : Config.OpenParams} {a : Nat} {s t : State} (h : Leaves p s (.sta a) t)
    (hwf : s.mem.wf = true) (b : Nat) :
    a < Config.memSize ∧ memRead t b = if b = a then some s.acc else memRead s b := by
  cases h with
  | sta ha => exact ⟨ha, (memRead_of_write hwf rfl b).trans (by simp only [and_iff_left ha])⟩

/-- Settles O31: the instruction is STA, or no mailbox is written; and its address is the one that changed. -/
theorem onlyStaWritesMailboxes : Obligations.OnlyStaWritesMailboxes := by
  intro s t b h hb
  obtain ⟨⟨-, -, -, -, -, hwf, -⟩, -, i, hdec, hleaves⟩ := step_leaves h
  by_cases hi : ∃ a, i = .sta a
  case neg => exact absurd (memRead_congr (hleaves.mem_eq fun a ha => hi ⟨a, ha⟩) b) hb
  obtain ⟨a, rfl⟩ := hi
  obtain ⟨-, hread⟩ := hleaves.memRead_sta hwf b
  by_cases hba : b = a
  · subst hba
    exact ⟨hdec, hread.trans (if_pos rfl)⟩
  · exact absurd (hread.trans (if_neg hba)) hb

/-- Settles O30: the mailbox reads ACC, and a fetch from it leaves what it reads in CIR, whether the word
decodes or not. -/
theorem storeIsSeenByTheNextFetch : Obligations.StoreIsSeenByTheNextFetch := by
  intro s t a hsta h
  obtain ⟨⟨-, -, -, -, -, hwf, -⟩, -, i, hdec, hleaves⟩ := step_leaves h
  cases hsta.symm.trans hdec
  obtain ⟨ha, hread⟩ := hleaves.memRead_sta hwf a
  have hstored : memRead t a = some s.acc := hread.trans (if_pos rfl)
  refine ⟨hstored, fun r hpc hr => ?_⟩
  have hword : r.mem.read r.pc = s.acc := by
    rw [hstored, memRead_of_lt ha] at hr
    rw [hpc]
    exact Option.some.inj hr
  refine ⟨fun u hu => (cirHoldsTheFetchedWord r u hu).trans hword, fun left hbad => ?_⟩
  obtain ⟨-, ⟨-, hf⟩ | ⟨-, -, -, hf⟩⟩ := step_fault hbad
  · cases hf
  · cases hf
    exact hword

/-! ## ACC (R25, R26) -/

/-- Settles O32: in the other cases the execute phase leaves ACC. -/
theorem onlyFourInstructionsWriteAcc : Obligations.OnlyFourInstructionsWriteAcc := by
  intro s t h hacc
  obtain ⟨-, -, i, hdec, hleaves⟩ := step_leaves h
  refine ⟨i, hdec, ?_⟩
  cases hleaves with
  | add => exact .inl ⟨_, .inl rfl⟩
  | sub => exact .inl ⟨_, .inr (.inl rfl)⟩
  | lda => exact .inl ⟨_, .inr (.inr rfl)⟩
  | inpTake => exact .inr ⟨rfl, rfl⟩
  | hlt | sta | bra | brz | brp | inpPause | out | otc => exact absurd rfl hacc

/-! ## PC (R22, R24) -/

/-- Settles O33: the PC each way of completing leaves; INP's two are told apart by the answer. -/
theorem pcAdvancesByOneUnlessBranchHaltOrPause : Obligations.PcAdvancesByOneUnlessBranchHaltOrPause := by
  intro s t h
  obtain ⟨-, -, i, hdec, hleaves⟩ := step_leaves h
  refine ⟨i, hdec, ?_⟩
  cases hleaves with
  | hlt | add | sub | sta | lda | bra | brz | brp | out | otc => rfl
  | inpPause hans => exact (if_pos hans).symm
  | inpTake hans =>
    have hne : s.answers.head?.join ≠ none := by
      rw [show s.answers = _ from hans]
      exact Option.some_ne_none _
    exact (if_neg hne).symm

/-- PC after an execute phase: as before, one more, or the operand. -/
theorem Leaves.pc_cases {p : Config.OpenParams} {i : Instr} {s t : State} (h : Leaves p s i t) :
    t.pc = s.pc ∨ t.pc = s.pc + 1 ∨ i.operand? = some t.pc := by
  cases h with
  | hlt | inpPause => exact .inl rfl
  | add | sub | sta | lda | inpTake | out | otc => exact .inr (.inl rfl)
  | bra => exact .inr (.inr rfl)
  | brz | brp =>
    dsimp only
    split_ifs
    · exact .inr (.inr rfl)
    · exact .inr (.inl rfl)

/-- Settles O34: the old PC and the operand are mailbox addresses. -/
theorem stepLeavesPcAtMost100 : Obligations.StepLeavesPcAtMost100 := by
  intro s t h
  obtain ⟨-, hpc, i, hdec, hleaves⟩ := step_leaves h
  obtain hsame | hsucc | htarget := hleaves.pc_cases
  · exact hsame.trans_le (Nat.le_of_lt hpc)
  · exact hsucc.trans_le hpc
  · exact Nat.le_of_lt (operand_lt_of_decode hdec htarget)

/-! ## The answers to `In()` (R39) -/

/-- Only INP with a value drives in_take. -/
theorem Leaves.inTake_iff {p : Config.OpenParams} {i : Instr} {s t : State} (h : Leaves p s i t) :
    t.report.inTake = true ↔ i = .inp ∧ ∃ v rest, s.answers = some v :: rest := by
  cases h with
  | inpTake hans => exact iff_of_true rfl ⟨rfl, _, _, hans⟩
  | inpPause hans =>
    refine iff_of_false Bool.false_ne_true ?_
    rintro ⟨-, v, rest, hv⟩
    rw [hv] at hans
    cases hans
  | hlt | add | sub | sta | lda | bra | brz | brp | out | otc =>
    exact iff_of_false Bool.false_ne_true nofun

/-- Settles O26: in_take is `Leaves.inTake_iff`, and the value an INP takes is the first answer. -/
theorem inTakeExactlyWhenAValueIsConsumed : Obligations.InTakeExactlyWhenAValueIsConsumed := by
  intro s t h
  obtain ⟨-, -, i, hdec, hleaves⟩ := step_leaves h
  refine ⟨?iff, fun v rest htake hans => ?taken⟩
  case iff =>
    have hinp : decode unitParams (s.mem.read s.pc) = .instr .inp ↔ i = .inp := by
      rw [hdec, Decoded.instr.injEq]
    rw [hinp]
    exact hleaves.inTake_iff
  case taken =>
    cases hleaves with
    | inpTake hv =>
      cases hans.symm.trans hv
      exact ⟨rfl, rfl⟩
    | _ => cases htake

/-! ## A step at halt (R188) -/

/-- At halt the step is HLT, which completes with the fetched 0 in CIR. -/
theorem step_of_atHalt {s : State} (hs : s.WellFormed) (hhalt : AtHalt s) :
    step s = .next ((s.setCir 0).setReport okReport) := by
  obtain ⟨hpc, hword⟩ := hhalt
  rw [step_of_instr hs hpc (i := .hlt) (by rw [hword]; decide), hword]
  rfl

/-- Settles O29: the state left differs from the first in CIR and the report only, which a step at halt writes
as they are there. -/
theorem stepAtHaltIsAStutter : Obligations.StepAtHaltIsAStutter := by
  intro s hs hhalt
  have hnext := step_of_atHalt hs hhalt
  have ht := stepKeepsWellFormed _ _ hs hnext
  exact ⟨_, hnext, rfl, hhalt, step_of_atHalt ht hhalt⟩

end Sys2Proof.Machine

/-! # Proofs: the unit under any configuration (R10) -/

namespace Sys2Proof

/-- The open parameters reach the decoder at the two words of OTC only (R85). -/
theorem decode_congr {p q : Config.OpenParams} {w : Word} (hp : w ≠ p.otcCode) (hq : w ≠ q.otcCode) :
    decode p w = decode q w := by
  have hfixed : decodeFixed p w = decodeFixed q w := by
    simp only [decodeFixed, hp, hq, false_and, if_false]
  rw [decode, decode, hfixed]

end Sys2Proof

namespace Sys2Proof.Machine

theorem stepWith_of_instr {p : Config.OpenParams} {s : State} {i : Instr} (hs : s.WellFormed)
    (hpc : s.pc < Config.memSize) (hdec : decode p (s.mem.read s.pc) = .instr i) :
    stepWith p s = execWith p i (s.setCir (s.mem.read s.pc)) := by
  rw [stepWith, stepBy, if_pos hs, fetchDecode_of_lt _ hpc, decodeCir_instr (i := i) hdec]

theorem stepWith_of_invalid {p : Config.OpenParams} {s : State} {why : InvalidWord} (hs : s.WellFormed)
    (hpc : s.pc < Config.memSize) (hdec : decode p (s.mem.read s.pc) = .invalid why) :
    stepWith p s = .fault (raise .badInstruction (s.setCir (s.mem.read s.pc))) := by
  rw [stepWith, stepBy, if_pos hs, fetchDecode_of_lt _ hpc, decodeCir_invalid (why := why) hdec]

/-- Two overflow laws answer alike where they agree on the exact result (R140). -/
theorem accumulate_congr {law law' : Word → Word} {f : Word → Word → Word} {a : Nat} {s : State}
    (h : law (f s.acc (s.mem.read a)) = law' (f s.acc (s.mem.read a))) :
    accumulate law f a s = accumulate law' f a s := by
  rw [accumulate_eq, accumulate_eq, h]

/-- Legal overflow laws agree on legal words: each leaves them alone (R140). -/
theorem legalWrap_agree {law law' : Word → Word} (h : Config.LegalWrap law) (h' : Config.LegalWrap law')
    {x : Word} (hx : Config.InWord x) : law x = law' x := ((h x).2 hx).trans ((h' x).2 hx).symm

/-- The open parameters reach the execute phase of ADD and SUB only, and there where the result overflows. -/
theorem execWith_congr {p q : Config.OpenParams} {i : Instr} {s : State} (hp : Config.LegalWrap p.wrapAcc)
    (hq : Config.LegalWrap q.wrapAcc)
    (hadd : ∀ a, i = .add a → Config.InWord (s.acc + s.mem.read a))
    (hsub : ∀ a, i = .sub a → Config.InWord (s.acc - s.mem.read a)) :
    execWith p i s = execWith q i s := by
  cases i with
  | add a => exact accumulate_congr (legalWrap_agree hp hq (hadd a rfl))
  | sub a => exact accumulate_congr (legalWrap_agree hp hq (hsub a rfl))
  | hlt | sta | lda | bra | brz | brp | inp | out | otc => rfl

/-- Settles O57: both refuse, or both fetch a word they decode alike, and then execute alike. -/
theorem configurationsAgreeWithoutOverflowOrOtc : Obligations.ConfigurationsAgreeWithoutOverflowOrOtc := by
  rintro p s ⟨hlaw, -⟩ hp hq hadd hsub
  by_cases hs : s.WellFormed
  case neg => rw [stepWith_of_not_wellFormed p hs, step_of_not_wellFormed hs]
  have hdecode := decode_congr hp hq
  rcases stepWith_cases p hs with ⟨hpc, e⟩ | ⟨hpc, why, hdec, e⟩ | ⟨hpc, i, hdec, e⟩
  · rw [e, step_of_pc_ge hs hpc]
  · rw [e, step_of_invalid hs hpc (hdecode ▸ hdec)]
  · have hunit : decode unitParams (s.mem.read s.pc) = .instr i := hdecode ▸ hdec
    rw [e, step_of_instr hs hpc hunit, exec_eq_execWith]
    exact execWith_congr hlaw legal_unitParams.1 (fun a ha => hadd a (ha ▸ hunit))
      fun a ha => hsub a (ha ▸ hunit)

/-- Settles O58: the word is OTC's where there is OTC, and invalid where there is none. -/
theorem otcWordRunsExactlyWithHasOtc : Obligations.OtcWordRunsExactlyWithHasOtc := by
  rintro p s ⟨-, hotc⟩ hs hpc hword
  refine ⟨fun hp => ?runs, fun hp => ?fails⟩
  case runs =>
    have hdec : decode p (s.mem.read s.pc) = .instr .otc := hword ▸ decode_encode (i := .otc) hotc hp
    exact ⟨_, stepWith_of_instr hs hpc hdec, rfl, rfl, rfl, hword, rfl⟩
  case fails =>
    obtain ⟨why, hdec⟩ := decode_otcCode_invalid hotc hp
    rw [← hword] at hdec ⊢
    exact ⟨_, stepWith_of_invalid hs hpc hdec, ⟨rfl, rfl, rfl, rfl, rfl, rfl⟩, rfl, rfl⟩

end Sys2Proof.Machine

/-! # Proofs: the toolchain (R91, R105 to R109) -/

namespace Sys2Proof.Machine

/-! ## The two passes -/

/-- Pass 1 gives every label the address of a statement (R105). -/
theorem passOne_address_lt {sts : List Statement} {n : Nat} {tab tab' : SymbolTable}
    (h : passOne n tab sts = .ok tab') (htab : ∀ e ∈ tab, e.2 < n + sts.length) :
    ∀ e ∈ tab', e.2 < n + sts.length := by
  induction sts generalizing n tab with
  | nil => cases h; exact htab
  | cons st sts ih =>
    rw [passOne] at h
    rw [List.length_cons, Nat.add_comm sts.length 1, ← Nat.add_assoc] at htab ⊢
    split at h
    case h_1 => exact ih h htab
    case h_2 name _ =>
      split at h
      · cases h
      · refine ih h (List.forall_mem_cons.2 ⟨?_, htab⟩)
        exact Nat.lt_of_lt_of_le (Nat.lt_succ_self n) (Nat.le_add_right _ _)

/-- An operand resolves to a mailbox address, when every label names one (R106). -/
theorem resolveAddress_lt {tab : SymbolTable} {line a : Nat} {o : AsmOperand}
    (htab : ∀ e ∈ tab, e.2 < Config.memSize) (h : resolveAddress tab line o = .ok a) :
    a < Config.memSize := by
  cases o with
  | literal v =>
    rw [resolveAddress] at h
    split at h
    · rename_i hv
      cases h
      exact (Int.toNat_lt hv.1).2 hv.2
    · cases h
  | label name =>
    rw [resolveAddress] at h
    split at h
    · rename_i hlook
      cases h
      obtain ⟨l₁, l₂, rfl, -⟩ := List.lookup_eq_some_iff.1 hlook
      exact htab _ (List.mem_append_right _ List.mem_cons_self)
    · cases h

/-- Pass 2 emits the word of each statement in its place (R106). -/
theorem passTwo_forall₂ {p : Config.OpenParams} {tab : SymbolTable} {sts : List Statement} {ws : List Word}
    (h : passTwo p tab sts = .ok ws) : List.Forall₂ (fun st w => emitStatement p tab st = .ok w) sts ws := by
  induction sts generalizing ws with
  | nil => cases h; exact .nil
  | cons st sts ih =>
    rw [passTwo] at h
    split at h
    · cases h
    · split at h <;> cases h
      exact .cons ‹_› (ih ‹_›)

/-! ## The words emitted -/

/-- A mnemonic that takes an address has the opcode digit of an instruction (R102, R107). -/
theorem exists_instr_of_opcode {m : Mnemonic} {d : Word} (h : m.opcode? = some d) (a : Nat) :
    ∃ i : Instr, i.opcodeDigit? = some d ∧ i.operand? = some a := by
  refine exists_instr_of_digit a ?_
  cases m <;> cases h <;> decide

theorem isFormatAWord_of_opcode {m : Mnemonic} {d : Word} {a : Nat} (h : m.opcode? = some d)
    (ha : a < Config.memSize) : IsFormatAWord (formatA d a) := by
  obtain ⟨i, hd, -⟩ := exists_instr_of_opcode h a
  exact isFormatAWord_formatA hd ha

theorem fixedCode_cases {p : Config.OpenParams} {m : Mnemonic} {c : Word} (h : fixedCode p m = some c) :
    c = Config.codeHlt ∨ c = Config.codeInp ∨ c = Config.codeOut ∨ c = p.otcCode := by
  cases m <;> cases h <;> simp

theorem mnemonic_eq_dat {p : Config.OpenParams} {m : Mnemonic} (hop : m.opcode? = none)
    (hfixed : fixedCode p m = none) : m = .dat := by
  cases m with
  | dat => rfl
  | add | sub | sta | lda | bra | brz | brp => cases hop
  | hlt | inp | out | otc => cases hfixed

/-- Everything pass 2 emits (R107, R108): a format A word, a fixed code, or the value of a DAT. -/
theorem emitStatement_cases {p : Config.OpenParams} {tab : SymbolTable} {st : Statement} {w : Word}
    (htab : ∀ e ∈ tab, e.2 < Config.memSize) (h : emitStatement p tab st = .ok w) :
    IsFormatAWord w ∨ (w = Config.codeHlt ∨ w = Config.codeInp ∨ w = Config.codeOut ∨ w = p.otcCode) ∨
      (st.mnemonic = .dat ∧ Config.InWord w) := by
  unfold emitStatement at h
  split at h
  case h_1 hop _ =>
    split at h <;> cases h
    exact .inl (isFormatAWord_of_opcode hop (resolveAddress_lt htab ‹_›))
  case h_2 hfixed _ =>
    cases h
    exact .inr (.inl (fixedCode_cases hfixed))
  case h_3 hop hfixed _ =>
    split at h <;> cases h
    exact .inr (.inr ⟨mnemonic_eq_dat hop hfixed, ‹_›⟩)
  case h_4 => cases h

/-- With OTC, every word emitted for an instruction mnemonic is a word of the opcode map (R91). -/
theorem isInstrWord_of_emitStatement {p : Config.OpenParams} {tab : SymbolTable} {st : Statement} {w : Word}
    (htab : ∀ e ∈ tab, e.2 < Config.memSize) (hp : p.hasOtc = true) (hst : st.mnemonic ≠ .dat)
    (h : emitStatement p tab st = .ok w) : IsInstrWord p w := by
  obtain hA | (hhlt | hinp | hout | hotc) | ⟨hdat, -⟩ := emitStatement_cases htab h
  · exact .inl hA
  · exact .inr (.inl hhlt)
  · exact .inr (.inr (.inl hinp))
  · exact .inr (.inr (.inr (.inl hout)))
  · exact .inr (.inr (.inr (.inr ⟨hotc, hp⟩)))
  · exact absurd hdat hst

/-- Every word emitted is one a mailbox can hold (R32). -/
theorem inWord_of_emitStatement {p : Config.OpenParams} {tab : SymbolTable} {st : Statement} {w : Word}
    (htab : ∀ e ∈ tab, e.2 < Config.memSize) (hotc : Config.LegalOtcCode p.otcCode)
    (h : emitStatement p tab st = .ok w) : Config.InWord w := by
  obtain hA | hfixed | ⟨-, hw⟩ := emitStatement_cases htab h
  · simp only [Word, IsFormatAWord, Config.InWord, Config.wordMin, Config.wordMax] at *
    omega
  · simp only [Word, Config.LegalOtcCode, Config.codeHlt, Config.codeInp, Config.codeOut, Config.InWord,
      Config.wordMin, Config.wordMax] at *
    omega
  · exact hw

/-! ## The image -/

/-- What an assembly that succeeds has done: a symbol table of mailbox addresses, and for each of at most 100
statements its word. -/
theorem assemble_ok {p : Config.OpenParams} {sts : List Statement} {ws : List Word}
    (h : assemble p sts = .ok ws) : sts.length ≤ Config.memSize ∧
      ∃ tab : SymbolTable, (∀ e ∈ tab, e.2 < Config.memSize) ∧
        List.Forall₂ (fun st w => emitStatement p tab st = .ok w) sts ws := by
  rcases assemble_cases p sts with ⟨st, -, e⟩ | ⟨-, err, -, e⟩ | ⟨hlen, tab, htab, e⟩ <;> rw [e] at h
  · cases h
  · cases h
  · refine ⟨hlen, tab, fun entry hmem => ?_, passTwo_forall₂ h⟩
    have haddr := passOne_address_lt htab nofun entry hmem
    rw [Nat.zero_add] at haddr
    exact haddr.trans_le hlen

/-- A statement at address 100 has no mailbox, and the test for it comes first (R109). -/
theorem assemble_of_getElem?_memSize {sts : List Statement} {st : Statement}
    (h : sts[Config.memSize]? = some st) (p : Config.OpenParams) :
    assemble p sts = .error (.imageTooLong st.line) := by
  rw [assemble, h]

/-- Settles O52: pass 2 emits one word per statement, and the 101st statement is the one at address 100. -/
theorem assembledImageLength : Obligations.AssembledImageLength := by
  refine ⟨fun p sts ws h => ?image, fun p sts hlong => ?tooLong⟩
  case image =>
    obtain ⟨hlen, tab, -, hemit⟩ := assemble_ok h
    exact ⟨hemit.length_eq.symm, hemit.length_eq ▸ hlen⟩
  case tooLong =>
    have hst : sts[100]? = some sts[100] := List.getElem?_eq_getElem hlong
    exact ⟨_, hst, assemble_of_getElem?_memSize hst p⟩

/-- Settles O53: the word at `k` is the one emitted for the statement at `k`. -/
theorem assemblerEmitsInvalidWordsOnlyForDat : Obligations.AssemblerEmitsInvalidWordsOnlyForDat := by
  rintro p sts ws k st w ⟨-, hotc⟩ hp h hst hw hne
  obtain ⟨-, tab, htab, hemit⟩ := assemble_ok h
  obtain ⟨hk, rfl⟩ := List.getElem?_eq_some_iff.1 hst
  obtain ⟨hk', rfl⟩ := List.getElem?_eq_some_iff.1 hw
  exact (decode_isInstr_iff hotc).2 (isInstrWord_of_emitStatement htab hp hne (hemit.get hk hk'))

/-- Settles O54: at most 100 words, each legal, are an image. -/
theorem assembledImageLoads : Obligations.AssembledImageLoads := by
  rintro p sts ws s ⟨-, hotc⟩ h
  obtain ⟨hlen, tab, htab, hemit⟩ := assemble_ok h
  refine ⟨_, State.loadImage_of_imageOk ⟨hemit.length_eq ▸ hlen, fun w hw => ?_⟩⟩
  obtain ⟨k, hk, rfl⟩ := List.getElem_of_mem hw
  exact inWord_of_emitStatement htab hotc (hemit.get (hemit.length_eq ▸ hk) hk)

end Sys2Proof.Machine

/-! # Proofs: runs (R187) -/

namespace Sys2Proof.Machine

/-! ## The states of a run -/

/-- Everything the status at a well-formed state can be: the halt, or the outcome of the step. -/
theorem runStatus_cases {s : State} (hs : s.WellFormed) :
    (AtHalt s ∧ runStatus s = .halted s) ∨
    (¬ AtHalt s ∧ ∃ f, step s = .fault f ∧ runStatus s = .failed f) ∨
    (¬ AtHalt s ∧ ∃ r, step s = .refused r ∧ runStatus s = .noMeaning r) ∨
    (¬ AtHalt s ∧ ∃ t, step s = .next t ∧ (runStatus s = .suspended t ∨ runStatus s = .running t)) := by
  by_cases hhalt : AtHalt s
  · exact .inl ⟨hhalt, runStatus_of_atHalt hs hhalt⟩
  have hstatus := runStatus_of_not_atHalt hs hhalt
  cases hstep : step s with
  | fault f => rw [hstep] at hstatus; exact .inr (.inl ⟨hhalt, f, rfl, hstatus⟩)
  | refused r => rw [hstep] at hstatus; exact .inr (.inr (.inl ⟨hhalt, r, rfl, hstatus⟩))
  | next t =>
    rw [hstep] at hstatus
    refine .inr (.inr (.inr ⟨hhalt, t, rfl, ?_⟩))
    by_cases hpause : t.report.result = some .needInput
    · exact .inl (hstatus.trans (if_pos hpause))
    · exact .inr (hstatus.trans (if_neg hpause))

/-- A run goes on from the state a step left. -/
theorem step_of_continues {s t : State} (hs : s.WellFormed) (h : (runStatus s).continues = some t) :
    step s = .next t := by
  rcases runStatus_cases hs with ⟨-, e⟩ | ⟨-, _, -, e⟩ | ⟨-, _, -, e⟩ | ⟨-, u, hstep, e | e⟩ <;>
    rw [e] at h <;> cases h
  all_goals exact hstep

/-- Every state of a run is well-formed: the first is (R42), and every step keeps it. -/
theorem runState_wellFormed {feed : InputFeed} {n : Nat} {s t : State} (h : runState feed n s = some t) :
    t.WellFormed := by
  induction n generalizing t with
  | zero =>
    by_cases hs : s.WellFormed
    · rw [runState_zero feed hs] at h
      cases h
      exact hs
    · rw [runState, if_neg hs] at h
      cases h
  | succ n ih =>
    rw [runState_succ] at h
    obtain ⟨r, hr, h⟩ := Option.bind_eq_some_iff.1 h
    obtain ⟨u, hu, rfl⟩ := Option.map_eq_some_iff.1 h
    exact stepKeepsWellFormed r u (ih hr) (step_of_continues (ih hr) hu)

theorem runStatusAt_eq_some {feed : InputFeed} {n : Nat} {s : State} {r : RunStatus} :
    runStatusAt feed n s = some r ↔ ∃ t, runState feed n s = some t ∧ runStatus t = r :=
  Option.map_eq_some_iff

/-- A run at a status from which it does not go on has no later state. -/
theorem runState_none_of_over {feed : InputFeed} {n m : Nat} {s : State} {r : RunStatus}
    (h : runStatusAt feed n s = some r) (hr : r.continues = none) (hnm : n < m) :
    runState feed m s = none := by
  obtain ⟨t, ht, rfl⟩ := runStatusAt_eq_some.1 h
  refine runState_none hnm ?_
  rw [runState_succ, ht, Option.bind_some, hr]
  rfl

/-! ## How a run ends -/

theorem runStatus_eq_halted_iff {s t : State} (hs : s.WellFormed) :
    runStatus s = .halted t ↔ s = t ∧ AtHalt s := by
  rcases runStatus_cases hs with ⟨hhalt, e⟩ | ⟨hhalt, _, -, e⟩ | ⟨hhalt, _, -, e⟩ | ⟨hhalt, _, -, e | e⟩
  · rw [e, RunStatus.halted.injEq, and_iff_left hhalt]
  all_goals simp [e, hhalt]

/-- A state at halt does not fail: its step is HLT. -/
theorem runStatus_eq_failed_iff {s : State} {f : Fault} (hs : s.WellFormed) :
    runStatus s = .failed f ↔ step s = .fault f := by
  rcases runStatus_cases hs with ⟨hhalt, e⟩ | ⟨-, _, hstep, e⟩ | ⟨-, _, hstep, e⟩ | ⟨-, _, hstep, e | e⟩
  · simp [e, step_of_atHalt hs hhalt]
  all_goals simp [e, hstep]

/-- Settles O59: the status at a state of the run, well-formed as each is, is the halt exactly where it is at
halt and the failure exactly where its step fails; from neither does the run go on. -/
theorem runIsOverAtTheFirstHaltOrError : Obligations.RunIsOverAtTheFirstHaltOrError := by
  refine fun feed s n => ⟨fun t => ?succeeds, fun f => ?fails, ?noFurther⟩
  case succeeds =>
    rw [RunSucceeds, runStatusAt_eq_some]
    constructor
    · rintro ⟨u, hu, hstatus⟩
      obtain ⟨rfl, hhalt⟩ := (runStatus_eq_halted_iff (runState_wellFormed hu)).1 hstatus
      exact ⟨hu, hhalt⟩
    · rintro ⟨ht, hhalt⟩
      exact ⟨t, ht, runStatus_of_atHalt (runState_wellFormed ht) hhalt⟩
  case fails =>
    rw [RunFails, runStatusAt_eq_some]
    exact exists_congr fun t => and_congr_right fun ht => runStatus_eq_failed_iff (runState_wellFormed ht)
  case noFurther =>
    rintro (⟨t, h⟩ | ⟨f, h⟩) m hnm
    · exact runState_none_of_over h rfl hnm
    · exact runState_none_of_over h rfl hnm

/-! ## Every run ends, suspends or is infinite -/

/-- A step that faults leaves a state for the host to see (R190, R191). -/
theorem exists_stateLeft {s : State} {f : Fault} (h : step s = .fault f) :
    ∃ left, f.stateLeft = some left := by
  obtain ⟨e, w, rfl⟩ := step_fault_raise_setCir h
  exact ⟨_, stateLeft_raise e _⟩

theorem execInp_refused {s : State} {r : Refusal} (h : execInp s = .refused r) :
    ∃ v, ¬ Config.InWord v ∧ r = .inputOutOfRange v := by
  rcases answers_cases s with hnone | ⟨v, rest, hv⟩
  · rw [execInp_none hnone] at h
    cases h
  · rw [execInp_some hv] at h
    split at h <;> cases h
    exact ⟨v, ‹_›, rfl⟩

/-- A step from a well-formed state is refused only where INP is offered a value that is no legal word
(R172). -/
theorem step_refused {s : State} {r : Refusal} (hs : s.WellFormed) (h : step s = .refused r) :
    ∃ v, ¬ Config.InWord v ∧ r = .inputOutOfRange v := by
  rcases step_cases hs with ⟨-, e⟩ | ⟨-, -, -, e⟩ | ⟨-, i, hdec, e⟩
  · cases h.symm.trans e
  · cases h.symm.trans e
  by_cases hinp : i = .inp
  · subst hinp
    exact execInp_refused (e.symm.trans h)
  · obtain ⟨t, hexec, -⟩ := exec_completes (s.setCir (s.mem.read s.pc)) hinp
      fun _ ha => operand_lt_of_decode hdec ha
    cases h.symm.trans (e.trans hexec)

theorem runStatus_eq_noMeaning {s : State} {r : Refusal} (hs : s.WellFormed) (h : runStatus s = .noMeaning r) :
    step s = .refused r := by
  rcases runStatus_cases hs with ⟨-, e⟩ | ⟨-, _, -, e⟩ | ⟨-, _, hstep, e⟩ | ⟨-, _, -, e | e⟩ <;>
    cases h.symm.trans e
  exact hstep

/-- A run whose every status is that of a completed step goes on for ever. -/
theorem runIsInfinite_of_always_running {feed : InputFeed} {s : State} (hs : s.WellFormed)
    (h : ∀ n r, runStatusAt feed n s = some r → ∃ t, r = .running t) : RunIsInfinite feed s := by
  refine runIsInfinite_of_invariant (fun n t => runState feed n s = some t) hs (runState_zero feed hs)
    fun n t ht => ?_
  obtain ⟨u, hu⟩ := h n _ (runStatusAt_of_runState ht)
  exact ⟨u, hu, runState_succ_of_running ht hu⟩

/-- Settles O60: where some status of the run is not that of a completed step, it is one of the other four, of
which `exists_stateLeft` and `step_refused` say what they carry. -/
theorem everyRunEndsSuspendsOrIsInfinite : Obligations.EveryRunEndsSuspendsOrIsInfinite := by
  intro feed s hs
  by_cases hrun : ∀ n r, runStatusAt feed n s = some r → ∃ t, r = .running t
  · exact .inr (.inr (.inr (.inr (runIsInfinite_of_always_running hs hrun))))
  push Not at hrun
  obtain ⟨n, r, hr, hends⟩ := hrun
  obtain ⟨t, ht, hstatus⟩ := runStatusAt_eq_some.1 hr
  have hwf := runState_wellFormed ht
  cases r with
  | running u => exact absurd rfl (hends u)
  | halted u => exact .inl ⟨n, u, hr⟩
  | failed f =>
    obtain ⟨left, hleft⟩ := exists_stateLeft ((runStatus_eq_failed_iff hwf).1 hstatus)
    exact .inr (.inl ⟨n, f, left, hr, hleft⟩)
  | suspended u => exact .inr (.inr (.inl ⟨n, u, hr⟩))
  | noMeaning r =>
    obtain ⟨v, hv, rfl⟩ := step_refused hwf (runStatus_eq_noMeaning hwf hstatus)
    exact .inr (.inr (.inr (.inl ⟨n, v, hv, hr⟩)))

end Sys2Proof.Machine
